-- ==== Sys2Proof/Config.lean ====
section
/-! DEFINITION. What an implementation fixes: the two OPEN parameters of 00_scope R5, and the size of
the heap. There is no free value: no instruction has an open result (40_tick_cycle R93). -/

namespace Sys2Proof

/-- The OPEN parameters of R5: "The model takes each `OPEN` parameter as an argument". They stand in
`State.config`, so a statement about every state is a statement for every value of them
(DESIGN CHOICE, log entry 1). `none` is unbounded. -/
structure Config where
  /-- `STACK_CAPACITY`: the largest number of values the operand stack holds (R5, R20). -/
  stackCapacity : Option Nat
  /-- `PROG_CAPACITY`: the largest number of records the program store holds (R5). -/
  progCapacity : Option Nat
  deriving DecidableEq, Repr

/-- R5: "default unbounded", both. -/
def Config.default : Config := { stackCapacity := none, progCapacity := none }

/-- R5: `PROG_CAPACITY` is a "natural number below 2^64 or unbounded". -/
def Config.wellFormed (c : Config) : Bool :=
  match c.progCapacity with
  | none => true
  | some n => decide (n < 2 ^ 64)

/-- `HEAP_SIZE` is 0 entries (R5, R21). -/
def Config.heapSize : Nat := 0

end Sys2Proof
end

