-- ==== Sys2Proof/Word.lean ====
section
/-! DEFINITION. The data the machine computes on: bytes, 64-bit words, the three kinds of Value, the
eight opcodes (10_state R11, R14; 00_scope R7). -/

namespace Sys2Proof

/-- One byte of a byte stream (00_scope R7). -/
abbrev Byte := BitVec 8

/-- The integer payload of a `U64` or `Pointer`, and the program counter: 64 bits, unsigned (R5). -/
abbrev Word := BitVec 64

/-- The kinds of a Value (R11). -/
inductive Kind where
  | u64
  | pointer
  | bool
  deriving DecidableEq, Repr

/-- A Value, "a tagged union over exactly three variants" (R11). A declared kind that disagrees with
its payload cannot be written down (R12). -/
inductive Value where
  | u64 (n : Word)
  | pointer (n : Word)
  | bool (b : Bool)
  deriving DecidableEq, Repr

/-- The discriminant of an instruction record (R14), in the order of the source's list (R47). -/
inductive Opcode where
  | nop
  | push
  | add
  | sub
  | jmp
  | jmpIf
  | jmpO
  | jmpIfO
  deriving DecidableEq, Repr

end Sys2Proof
end

