-- ==== Sys2Proof/Machine/Errors.lean ====
section
/-! DEFINITION. The errors of the decoder and the engine (60_exceptions R140 to R150). -/

namespace Sys2Proof

/-- The error kinds, nine of the source and the spec's own two (R140). -/
inductive ErrorKind where
  /-- Decoder: a kind byte of 3 or more (R141). -/
  | invalidObject
  /-- Decoder: an opcode byte of 8 or more; `tick` step 3: a record that fails validation (R142). -/
  | invalidInstruction
  /-- `tick` step 4 of `JmpIf`, `JmpO`, `JmpIfO`: a popped operand of the wrong kind (R143). -/
  | invalidInstructionArgument
  /-- `tick` step 4 of `Add`, `Sub`: a `Bool`, or two different kinds (R144). -/
  | invalidOperator
  /-- The file-path loader, outside the block: raised by nothing here (R145, R4). -/
  | fileNotFound
  /-- Decoder: a failed read other than end of stream; encoder: a short write (R145). -/
  | fileError
  /-- Decoder: end of stream inside an instruction (R145). -/
  | unexpectedEOF
  /-- `tick` step 1: `pc >= len(Prog)`, the normal termination signal (R146). -/
  | noMoreInstructions
  /-- `tick` step 4: any `Pop()` at depth 0 (R147). -/
  | stackUnderflow
  /-- `tick` step 4: `Push(v)` at a finite `STACK_CAPACITY`; the spec's own (R150). -/
  | stackOverflow
  /-- Decoder: an append at a finite `PROG_CAPACITY`; the spec's own (R150). -/
  | programOverflow
  deriving DecidableEq, Repr

/-- "An error is a kind and an information word" (R140); the word is 64 bits (R148). -/
structure Error where
  kind : ErrorKind
  info : Word
  deriving DecidableEq, Repr

/-- The codes of R149. Code 0 is "no error". -/
def ErrorKind.code : ErrorKind → Nat
  | .invalidObject => 1
  | .invalidInstruction => 2
  | .invalidInstructionArgument => 3
  | .invalidOperator => 4
  | .fileNotFound => 5
  | .fileError => 6
  | .unexpectedEOF => 7
  | .noMoreInstructions => 8
  | .stackUnderflow => 9
  | .stackOverflow => 10
  | .programOverflow => 11

/-- The kinds that are fatal when `tick` raises them (R149), so those `fault` can hold (R23). -/
def ErrorKind.fatal : ErrorKind → Bool
  | .invalidInstruction => true
  | .invalidInstructionArgument => true
  | .invalidOperator => true
  | .stackUnderflow => true
  | .stackOverflow => true
  | .invalidObject => false
  | .fileNotFound => false
  | .fileError => false
  | .unexpectedEOF => false
  | .noMoreInstructions => false
  | .programOverflow => false

end Sys2Proof
end

