-- ==== Sys2Proof/Syntax.lean ====
section
/-! DEFINITION. Instruction records (10_state R14): one constructor per row of the opcode table, each
with the record's optional argument. "The record type admits every combination of `op` and `arg`;
which combinations are valid is decided by validation at execution time". -/

namespace Sys2Proof

/-- An instruction record `(op, arg)` (R14). An external builder may hand over any of them (R174). -/
inductive Instr where
  | nop (arg : Option Value)
  | push (arg : Option Value)
  | add (arg : Option Value)
  | sub (arg : Option Value)
  | jmp (arg : Option Value)
  | jmpIf (arg : Option Value)
  | jmpO (arg : Option Value)
  | jmpIfO (arg : Option Value)
  deriving DecidableEq, Repr

end Sys2Proof
end

