-- ==== Sys2Proof/WellFormed.lean ====
section
/-! DEFINITION. Which records the wire format can carry: the argument's presence matches the arity
(30_encoding R48, R65), whatever the argument's kind. A record that is not well formed is still a
record of the program store: it fails validation when fetched (40_tick_cycle R85). -/

namespace Sys2Proof

/-- The encoder's domain, "records whose argument presence matches `arity(op)`, whatever the
argument's kind" (R65). -/
def Instr.wellFormed : Instr → Bool
  | .nop arg => arg.isNone
  | .push arg => arg.isSome
  | .add arg => arg.isNone
  | .sub arg => arg.isNone
  | .jmp arg => arg.isSome
  | .jmpIf arg => arg.isSome
  | .jmpO arg => arg.isNone
  | .jmpIfO arg => arg.isNone

/-- Every record of a program is in the encoder's domain (R65, R66). -/
def programWellFormed (p : List Instr) : Bool := p.all Instr.wellFormed

end Sys2Proof
end

