-- ==== Sys2Proof/Decode.lean ====
section
/-! DEFINITION. The binary codec of 30_encoding: the byte stream and its two reads, the decoder (as the
functions of R58 to R60 and as the state machine of R61), the encoder (R64, R65), and the layout of an
opcode-table word as a byte stream. -/

namespace Sys2Proof

/-- `n` of something are within a capacity; `none` is unbounded (00_scope R5). -/
def fits (capacity : Option Nat) (n : Nat) : Bool :=
  match capacity with
  | none => true
  | some bound => decide (n ≤ bound)

/-! ## Opcodes and kinds -/

/-- The opcode byte selects the instruction kind by its whole value (R47); none from `0x08` (R53). -/
def opcodeOfByte (b : Byte) : Option Opcode :=
  match b.toNat with
  | 0 => some .nop
  | 1 => some .push
  | 2 => some .add
  | 3 => some .sub
  | 4 => some .jmp
  | 5 => some .jmpIf
  | 6 => some .jmpO
  | 7 => some .jmpIfO
  | _ => none

/-- The number of a discriminant (R14), the first byte of its encoding (R47). -/
def Opcode.byte : Opcode → Byte
  | .nop => 0
  | .push => 1
  | .add => 2
  | .sub => 3
  | .jmp => 4
  | .jmpIf => 5
  | .jmpO => 6
  | .jmpIfO => 7

/-- `arity(op)` (R48). -/
def Opcode.arity : Opcode → Nat
  | .nop => 0
  | .push => 1
  | .add => 0
  | .sub => 0
  | .jmp => 1
  | .jmpIf => 1
  | .jmpO => 0
  | .jmpIfO => 0

/-- The kind byte selects the variant by its whole value (R49); none from `0x03` (R54). -/
def kindOfByte (b : Byte) : Option Kind :=
  match b.toNat with
  | 0 => some .u64
  | 1 => some .pointer
  | 2 => some .bool
  | _ => none

/-- The number of a kind (10_state R11), its byte on the wire (R49). -/
def Kind.byte : Kind → Byte
  | .u64 => 0
  | .pointer => 1
  | .bool => 2

/-- The discriminant of a record (R14). -/
def Instr.op : Instr → Opcode
  | .nop _ => .nop
  | .push _ => .push
  | .add _ => .add
  | .sub _ => .sub
  | .jmp _ => .jmp
  | .jmpIf _ => .jmpIf
  | .jmpO _ => .jmpO
  | .jmpIfO _ => .jmpIfO

/-- The argument of a record (R14). -/
def Instr.arg : Instr → Option Value
  | .nop arg => arg
  | .push arg => arg
  | .add arg => arg
  | .sub arg => arg
  | .jmp arg => arg
  | .jmpIf arg => arg
  | .jmpO arg => arg
  | .jmpIfO arg => arg

/-- The record `(op, arg)` (R14). -/
def Opcode.record : Opcode → Option Value → Instr
  | .nop, arg => .nop arg
  | .push, arg => .push arg
  | .add, arg => .add arg
  | .sub, arg => .sub arg
  | .jmp, arg => .jmp arg
  | .jmpIf, arg => .jmpIf arg
  | .jmpO, arg => .jmpO arg
  | .jmpIfO, arg => .jmpIfO arg

/-! ## Values of a payload -/

/-- `kind(v)` (10_state R11). -/
def Value.kind : Value → Kind
  | .u64 _ => .u64
  | .pointer _ => .pointer
  | .bool _ => .bool

/-- `num(v)`: the integer of a `U64` or `Pointer` (10_state R11). -/
def Value.num : Value → Option Word
  | .u64 n => some n
  | .pointer n => some n
  | .bool _ => none

/-- `flag(v)`: the boolean of a `Bool` (10_state R11). -/
def Value.flag : Value → Option Bool
  | .u64 _ => none
  | .pointer _ => none
  | .bool b => some b

/-- `le64(b0..b7)`, little-endian assembly (R50). -/
def le64 (b0 b1 b2 b3 b4 b5 b6 b7 : Byte) : Word :=
  b7 ++ b6 ++ b5 ++ b4 ++ b3 ++ b2 ++ b1 ++ b0

/-- The 8 payload bytes `n[7:0], n[15:8], ..., n[63:56]` in wire order (R64). -/
def bytesOfWord (n : Word) : List Byte :=
  [n.extractLsb' 0 8, n.extractLsb' 8 8, n.extractLsb' 16 8, n.extractLsb' 24 8,
   n.extractLsb' 32 8, n.extractLsb' 40 8, n.extractLsb' 48 8, n.extractLsb' 56 8]

/-! ## The byte stream -/

/-- What follows the last byte a stream delivers: its end, or an I/O error with the I/O layer's text,
which no rule interprets (R57). -/
inductive StreamEnd where
  | eos
  | ioerr (text : String)
  deriving DecidableEq, Repr

/-- A byte stream being read: the bytes still to come, the count `off` of bytes delivered so far, and
what follows the last byte (R44, R57; log entry 6). -/
structure Stream where
  bytes : List Byte
  off : Nat
  ending : StreamEnd
  deriving DecidableEq, Repr

/-- A freshly opened stream of these bytes that ends without an I/O error (R57). -/
def Stream.ofBytes (bytes : List Byte) : Stream := { bytes := bytes, off := 0, ending := .eos }

/-- The answers of `StreamRead(n)` (R57), with the stream after a successful read. -/
inductive Read (α : Type) where
  | got (a : α) (rest : Stream)
  | eos (k : Nat)
  | ioerr (text : String)
  deriving DecidableEq, Repr

/-- The answer of a read that finds fewer bytes than asked for (R57). -/
def Stream.short {α : Type} (st : Stream) : Read α :=
  match st.ending with
  | .eos => .eos st.bytes.length
  | .ioerr text => .ioerr text

/-- `StreamRead(1)` (R57). -/
def Stream.readOne (st : Stream) : Read Byte :=
  match st.bytes with
  | [] => st.short
  | b0 :: rest => .got b0 { st with bytes := rest, off := st.off + 1 }

/-- `StreamRead(8)`, its eight bytes assembled by `le64` (R57, R58). -/
def Stream.readEight (st : Stream) : Read Word :=
  match st.bytes with
  | b0 :: b1 :: b2 :: b3 :: b4 :: b5 :: b6 :: b7 :: rest =>
    .got (le64 b0 b1 b2 b3 b4 b5 b6 b7) { st with bytes := rest, off := st.off + 8 }
  | _ => st.short

/-! ## The decoder -/

/-- The errors the decoder can raise (R62). -/
inductive DecodeError where
  /-- Unknown opcode byte (R53). -/
  | invalidInstruction
  /-- Unknown kind byte, with that byte's offset (R54). -/
  | invalidObject (offset : Nat)
  /-- End of stream inside an instruction (R58, R59). -/
  | unexpectedEOF
  /-- Any other failed read, with the I/O layer's text (R58, R59). -/
  | fileError (text : String)
  /-- An append beyond a finite `PROG_CAPACITY`; the spec's own (R60, decision D5). -/
  | programOverflow
  deriving DecidableEq, Repr

/-- A decoder error as a kind and an information word (60_exceptions R140, R148; log entry 7). -/
def DecodeError.toError : DecodeError → Error
  | .invalidInstruction => { kind := .invalidInstruction, info := 0 }
  | .invalidObject offset => { kind := .invalidObject, info := BitVec.ofNat 64 offset }
  | .unexpectedEOF => { kind := .unexpectedEOF, info := 0 }
  | .fileError _ => { kind := .fileError, info := 0 }
  | .programOverflow => { kind := .programOverflow, info := 0 }

/-- `decodeValue` (R58). -/
def decodeValue (st : Stream) : Except DecodeError (Value × Stream) :=
  match st.readOne with
  | .eos _ => .error .unexpectedEOF
  | .ioerr text => .error (.fileError text)
  | .got k st1 =>
    match kindOfByte k with
    | none => .error (.invalidObject st.off)
    | some .u64 =>
      match st1.readEight with
      | .eos _ => .error .unexpectedEOF
      | .ioerr text => .error (.fileError text)
      | .got n st2 => .ok (.u64 n, st2)
    | some .pointer =>
      match st1.readEight with
      | .eos _ => .error .unexpectedEOF
      | .ioerr text => .error (.fileError text)
      | .got n st2 => .ok (.pointer n, st2)
    | some .bool =>
      match st1.readOne with
      | .eos _ => .error .unexpectedEOF
      | .ioerr text => .error (.fileError text)
      | .got b st2 => .ok (.bool (b != 0), st2)

/-- The part of `decodeInstruction` after the opcode byte: a value follows exactly when the arity
is 1 (R59). -/
def decodeArgument (op : Opcode) (st : Stream) : Except DecodeError (Instr × Stream) :=
  if op.arity = 1 then
    match decodeValue st with
    | .error e => .error e
    | .ok (v, st1) => .ok (op.record (some v), st1)
  else .ok (op.record none, st)

/-- `decodeInstruction` (R59). -/
def decodeInstruction (st : Stream) : Except DecodeError (Instr × Stream) :=
  match st.readOne with
  | .eos _ => .error .unexpectedEOF
  | .ioerr text => .error (.fileError text)
  | .got b st1 =>
    match opcodeOfByte b with
    | none => .error .invalidInstruction
    | some op => decodeArgument op st1

/-- The loop of `decodeProgram` (R60): `p` is what has been accumulated. The fuel bounds the number of
instructions; each takes at least one byte, so as much fuel as there are bytes never runs out (DEDUCED, log entry 15). -/
def decodeLoop (capacity : Option Nat) : Nat → List Instr → Stream → Except DecodeError (List Instr)
  | fuel, p, st =>
    match st.readOne with
    | .eos _ => .ok p
    | .ioerr text => .error (.fileError text)
    | .got b st1 =>
      match opcodeOfByte b with
      | none => .error .invalidInstruction
      | some op =>
        match decodeArgument op st1 with
        | .error e => .error e
        | .ok (i, st2) =>
          if fits capacity (p.length + 1) then
            match fuel with
            | 0 => .error .unexpectedEOF
            | fuel + 1 => decodeLoop capacity fuel (p ++ [i]) st2
          else .error .programOverflow

/-- `decodeProgram` (R60), under a `PROG_CAPACITY`. -/
def decodeProgram (capacity : Option Nat) (st : Stream) : Except DecodeError (List Instr) :=
  decodeLoop capacity st.bytes.length [] st

/-! ## The decoder as a state machine -/

/-- The states of R61 with what each holds: the records so far, the stream, and in `KIND`, `PAY8`,
`PAY1` the opcode (and in `PAY8` which of the two integer kinds) held. -/
inductive DecoderState where
  | opc (p : List Instr) (st : Stream)
  | kind (op : Opcode) (p : List Instr) (st : Stream)
  | pay8 (op : Opcode) (pointer : Bool) (p : List Instr) (st : Stream)
  | pay1 (op : Opcode) (p : List Instr) (st : Stream)
  | done (p : List Instr)
  | err (e : DecodeError)
  deriving DecidableEq, Repr

/-- R61: the start state is `OPC` with `P = []`. -/
def DecoderState.start (st : Stream) : DecoderState := .opc [] st

/-- An append, which goes to `ERR` with `ProgramOverflow` when it would pass a finite
`PROG_CAPACITY` (R61). -/
def DecoderState.append (capacity : Option Nat) (p : List Instr) (i : Instr) (st : Stream) :
    DecoderState :=
  if fits capacity (p.length + 1) then .opc (p ++ [i]) st else .err .programOverflow

/-- One transition of R61's table: one `StreamRead`. `DONE` and `ERR` are final. -/
def DecoderState.next (capacity : Option Nat) : DecoderState → DecoderState
  | .opc p st =>
    match st.readOne with
    | .eos _ => .done p
    | .ioerr text => .err (.fileError text)
    | .got b st1 =>
      match opcodeOfByte b with
      | none => .err .invalidInstruction
      | some op =>
        if op.arity = 1 then .kind op p st1
        else DecoderState.append capacity p (op.record none) st1
  | .kind op p st =>
    match st.readOne with
    | .eos _ => .err .unexpectedEOF
    | .ioerr text => .err (.fileError text)
    | .got k st1 =>
      match kindOfByte k with
      | none => .err (.invalidObject st.off)
      | some .u64 => .pay8 op false p st1
      | some .pointer => .pay8 op true p st1
      | some .bool => .pay1 op p st1
  | .pay8 op pointer p st =>
    match st.readEight with
    | .eos _ => .err .unexpectedEOF
    | .ioerr text => .err (.fileError text)
    | .got n st1 =>
      DecoderState.append capacity p
        (op.record (some (if pointer then .pointer n else .u64 n))) st1
  | .pay1 op p st =>
    match st.readOne with
    | .eos _ => .err .unexpectedEOF
    | .ioerr text => .err (.fileError text)
    | .got b st1 => DecoderState.append capacity p (op.record (some (.bool (b != 0)))) st1
  | .done p => .done p
  | .err e => .err e

/-- So many transitions. -/
def DecoderState.run (capacity : Option Nat) : Nat → DecoderState → DecoderState
  | 0, d => d
  | k + 1, d => DecoderState.run capacity k (d.next capacity)

/-- What a final state answers (R61); a state that is not final has no answer yet. -/
def DecoderState.result : DecoderState → Option (Except DecodeError (List Instr))
  | .done p => some (.ok p)
  | .err e => some (.error e)
  | .opc _ _ => none
  | .kind _ _ _ => none
  | .pay8 _ _ _ _ => none
  | .pay1 _ _ _ => none

/-! ## The encoder -/

/-- The ways the encoder fails (R64, R65). -/
inductive EncodeError where
  /-- A record whose argument presence does not match its arity (R65, decision D28). -/
  | refusedRecord
  /-- A short write (R64). -/
  | fileError (text : String)
  /-- End of stream on a write (R64). -/
  | unexpectedEOF
  deriving DecidableEq, Repr

/-- `encodeValue` (R64). -/
def encodeValue : Value → List Byte
  | .u64 n => Kind.u64.byte :: bytesOfWord n
  | .pointer n => Kind.pointer.byte :: bytesOfWord n
  | .bool b => [Kind.bool.byte, if b then 1 else 0]

/-- The value bytes of a record, when its argument's presence matches its arity (R65). -/
def encodeArgument (op : Opcode) (arg : Option Value) : Except EncodeError (List Byte) :=
  match arg with
  | none => if op.arity = 0 then .ok [] else .error .refusedRecord
  | some v => if op.arity = 1 then .ok (encodeValue v) else .error .refusedRecord

/-- `encodeInstruction` (R65): the bytes of a record. -/
def encode (i : Instr) : Except EncodeError (List Byte) :=
  match encodeArgument i.op i.arg with
  | .error e => .error e
  | .ok bytes => .ok (i.op.byte :: bytes)

/-- `encodeProgram` (R65): the records in index order, nothing before, between or after them. -/
def encodeProgram : List Instr → Except EncodeError (List Byte)
  | [] => .ok []
  | i :: p =>
    match encode i with
    | .error e => .error e
    | .ok bytes =>
      match encodeProgram p with
      | .error e => .error e
      | .ok rest => .ok (bytes ++ rest)

/-- The encoder's output stream: what was written, how many more bytes it takes (`none`: no limit),
and what a write past them meets (R64; log entry 9). -/
structure Sink where
  written : List Byte
  room : Option Nat
  ending : StreamEnd
  deriving DecidableEq, Repr

/-- `StreamWrite(bytes)` (00_scope R8): appends; a short write fails (R64). -/
def Sink.write (bytes : List Byte) (k : Sink) : Except EncodeError Sink :=
  if fits k.room bytes.length then
    .ok { k with written := k.written ++ bytes, room := k.room.map (fun r => r - bytes.length) }
  else
    match k.ending with
    | .eos => .error .unexpectedEOF
    | .ioerr text => .error (.fileError text)

/-- The host's writer: a Program and a writable stream in, the wire format out (70_reset R175). DESIGN
CHOICE: the whole Program is encoded first and written in one write, so where it holds a record the encoder
refuses (R65) and the stream is also too short for the records before it, the refusal is the error; the
spec gives no precedence between the two (R8, R65, 60_exceptions R145; log entry 9). Safe for the
machine. -/
def writeProgram (p : List Instr) (k : Sink) : Except EncodeError Sink :=
  match encodeProgram p with
  | .error e => .error e
  | .ok bytes => k.write bytes

/-! ## Words of the opcode table -/

/-- The low `count` bytes of `w`, least significant first: the table's numbering has the first byte of
the stream in bits 7 to 0. -/
def bytesOfNat : Nat → Nat → List Byte
  | 0, _ => []
  | count + 1, w => BitVec.ofNat 8 w :: bytesOfNat count (w / 256)

/-- The bytes of an instruction whose first `nbits` bits are `w` and whose bits above are 0, as many
bytes as the longest instruction has (R52: 10), or more if `nbits` says so. -/
def tableBytes (nbits w : Nat) : List Byte :=
  bytesOfNat (max ((nbits + 7) / 8) 10) (w % 2 ^ nbits)

/-- The instruction the decoder reads from such a word. -/
def decodeTableWord (nbits w : Nat) : Option Instr :=
  match decodeInstruction (Stream.ofBytes (tableBytes nbits w)) with
  | .error _ => none
  | .ok (i, _) => some i

end Sys2Proof
end

