-- ==== Sys2Proof/Machine/State.lean ====
section
/-! DEFINITION. The state of the engine (10_state R10), the reasons a step can stop, the state after
reset (10_state R25, 70_reset R170). -/

namespace Sys2Proof.Machine

/-- The canonical form of the heap as a list of cells: addresses strictly rising. The heap has no
reads and no writes (10_state R21), so nothing but this form is said of its cells. -/
def Memory.rising : List Host.Cell → Bool
  | [] => true
  | [_] => true
  | a :: b :: rest => decide (a.1 < b.1) && Memory.rising (b :: rest)

/-- The heap's form: addresses strictly rising and below `HEAP_SIZE`, which is 0 (10_state R21). -/
def Memory.wf (m : List Host.Cell) : Bool :=
  Memory.rising m && m.all (fun c => decide (c.1 < Config.heapSize))

/-- The five state elements of 10_state R10, and the parameters of 00_scope R5. -/
structure State where
  /-- The OPEN parameters of R5, constant (log entry 1). -/
  config : Config
  /-- `Prog`, the program store: record `i` is at index `i` (R15). -/
  prog : List Instr
  /-- `pc`, the index of the next record to fetch (R17). -/
  pc : Word
  /-- `S`, the operand stack: bottom first, top last (R19). -/
  stack : List Value
  /-- `heap`, reserved: nothing reads or writes it (R21; log entry 3). -/
  heap : List Host.Cell
  /-- `fault`, the latch of the first fatal error (R23). -/
  fault : Option Error
  deriving DecidableEq, Repr

/-- The reasons the model stops with a fault. An error of the machine is not one of them: it is
latched in `State.fault`, in a next state (log entry 4). -/
inductive Fault where
  /-- Raised by `tick` step 2 in a state whose program store holds 2^64 records or more and whose `pc`
  is 2^64 - 1, where adding 1 would wrap. R5 and R18 exclude such a state, and the reset and the load
  never make one. Safe: the model stops (log entry 5). -/
  | programStoreTooLong
  deriving DecidableEq, Repr

/-- The reasons the model gives a case no meaning. -/
inductive Refusal where
  /-- An instruction without a meaning. No arm of `exec` answers it. Safe. -/
  | notModelled (mnemonic : String)
  /-- Raised by the host command `Reset(P)`, or by `Load` after a decode, for a Program that R5 and
  R170 do not let the host hand over: `len(P) > PROG_CAPACITY`, or 2^64 records or more. Safe: no state
  results (log entry 8). -/
  | programTooLong
  deriving DecidableEq, Repr

/-- What a transition answers when it carries nothing but the next state. -/
abbrev Result := Host.Outcome State Fault Refusal

/-- The machine after reset with nothing loaded: every element at its reset value (R25), the default
parameters (R5) and the empty Program (DESIGN CHOICE, log entry 2). -/
def State.reset : State :=
  { config := Config.default, prog := [], pc := 0, stack := [], heap := [], fault := none }

end Sys2Proof.Machine
end

