-- ==== Sys2Proof/Machine/Ops.lean ====
section
/-! DEFINITION. The shared operations on the state: reset, fetch, the advance of `pc`, `Pop()`, `Push(v)`,
the jump, and raising an error (40_tick_cycle R82 to R89). -/

namespace Sys2Proof.Machine

/-- `depth` (10_state R19). -/
def State.depth (s : State) : Nat := s.stack.length

/-- Fetch: the record at the current `pc`, none when `pc >= len(Prog)` (20_memory R31, R82). -/
def State.fetch (s : State) : Option Instr := s.prog[s.pc.toNat]?

/-- Step 2: `pc <- pc + 1` (R83). -/
def State.advancePc (s : State) : State := { s with pc := s.pc + 1 }

/-- A taken jump, "the single assignment `pc <- target`" (43_jumps R120). -/
def State.jumpTo (target : Word) (s : State) : State := { s with pc := target }

/-- `fault <- E`, the information word of a fatal error being 0 (R89, 60_exceptions R148). -/
def State.latch (kind : ErrorKind) (s : State) : State :=
  { s with fault := some { kind := kind, info := 0 } }

/-- Taking an error in step 3 or step 4 (R89, 60_exceptions R153): it is latched and the transition
ends. Everything else is what the steps before left. -/
def State.raise (kind : ErrorKind) (s : State) : Result := .next (s.latch kind)

/-- The only way out of Halted: `Reset(p)` under the parameters `c` (70_reset R170, 10_state R25,
60_exceptions R155). -/
def State.resetTo (c : Config) (p : List Instr) : State :=
  { config := c, prog := p, pc := 0, stack := [], heap := [], fault := none }

/-- `Pop()` and what follows it: `StackUnderflow` at depth 0, else the top and the state without it
(R87). -/
def State.withPop (s : State) (k : Value → State → Result) : Result :=
  match s.stack.getLast? with
  | none => s.raise .stackUnderflow
  | some v => k v { s with stack := s.stack.dropLast }

/-- There is room for one more value under `STACK_CAPACITY` (10_state R20; log entry 10). -/
def State.hasRoom (s : State) : Bool := fits s.config.stackCapacity (s.stack.length + 1)

/-- `Push(v)` as the last action: `v` is the new top, or `StackOverflow` with the stack as it is when a
finite capacity is reached (R88). -/
def State.pushValue (v : Value) (s : State) : Result :=
  if s.hasRoom then .next { s with stack := s.stack ++ [v] } else s.raise .stackOverflow

end Sys2Proof.Machine
end

