-- ==== Sys2Proof/Machine/Operands.lean ====
section
/-! DEFINITION. The operand forms: the argument of the record, checked in step 3 (40_tick_cycle R84,
R85), and a popped operand of a required kind, checked in step 4 (43_jumps R122 to R124). -/

namespace Sys2Proof.Machine

/-- `valid((op, arg))`, the table of R85. -/
def valid : Instr → Bool
  | .nop arg => arg.isNone
  | .push arg => arg.isSome
  | .add arg => arg.isNone
  | .sub arg => arg.isNone
  | .jmp arg => arg.map Value.kind == some .u64
  | .jmpIf arg => arg.map Value.kind == some .u64
  | .jmpO arg => arg.isNone
  | .jmpIfO arg => arg.isNone

/-- Step 3 for a record that "must carry no argument" (R85). -/
def withoutArg (arg : Option Value) (s : State) (k : Result) : Result :=
  match arg with
  | none => k
  | some _ => s.raise .invalidInstruction

/-- Step 3 for a record whose argument may be of any kind (R85, `Push`; 90_conflicts C1). -/
def withArg (arg : Option Value) (s : State) (k : Value → Result) : Result :=
  match arg with
  | none => s.raise .invalidInstruction
  | some v => k v

/-- Step 3 for a record whose argument must be of kind `U64` (R85, `Jmp` and `JmpIf`). -/
def withTargetArg (arg : Option Value) (s : State) (k : Word → Result) : Result :=
  match arg with
  | none => s.raise .invalidInstruction
  | some (.u64 n) => k n
  | some (.pointer _) => s.raise .invalidInstruction
  | some (.bool _) => s.raise .invalidInstruction

/-- A popped jump target "must be kind `U64`" (43_jumps R123, R124). -/
def withTarget (v : Value) (s : State) (k : Word → Result) : Result :=
  match v with
  | .u64 n => k n
  | .pointer _ => s.raise .invalidInstructionArgument
  | .bool _ => s.raise .invalidInstructionArgument

end Sys2Proof.Machine
end

