-- ==== Sys2Proof/Machine/Arithmetic.lean ====
section
/-! DEFINITION. `Add` and `Sub`, and the Value operator they share (42_arithmetic R110 to R112): step 3 and
step 4 of the tick, on the state that step 2 left. -/

namespace Sys2Proof.Machine

/-- `applyOperator(op, lhs, rhs)` (R110), `op` being the 64-bit operation of `Add` or `Sub`; `none` is
`InvalidOperator`. -/
def applyOperator (op : Word → Word → Word) (lhs rhs : Value) : Option Value :=
  match lhs, rhs with
  | .u64 a, .u64 b => some (.u64 (op a b))
  | .pointer a, .pointer b => some (.pointer (op a b))
  | .u64 _, .pointer _ => none
  | .u64 _, .bool _ => none
  | .pointer _, .u64 _ => none
  | .pointer _, .bool _ => none
  | .bool _, .u64 _ => none
  | .bool _, .pointer _ => none
  | .bool _, .bool _ => none

/-- `(a + b) mod 2^64` (R110, R113). -/
def addWord (a b : Word) : Word := a + b

/-- `(a - b) mod 2^64` (R110, R113). -/
def subWord (a b : Word) : Word := a - b

/-- `rhs <- Pop(); lhs <- Pop(); Push(applyOperator(op, lhs, rhs))` (R111, R112). -/
def binaryOperator (op : Word → Word → Word) (s : State) : Result :=
  s.withPop fun rhs s1 =>
    s1.withPop fun lhs s2 =>
      match applyOperator op lhs rhs with
      | none => s2.raise .invalidOperator
      | some v => s2.pushValue v

/-- `Add` (R111). -/
def execAdd (arg : Option Value) (s : State) : Result :=
  withoutArg arg s (binaryOperator addWord s)

/-- `Sub` (R112): the deeper value minus the top. -/
def execSub (arg : Option Value) (s : State) : Result :=
  withoutArg arg s (binaryOperator subWord s)

end Sys2Proof.Machine
end

