-- ==== Sys2Proof/Machine/Flags.lean ====
section
/-! DEFINITION. "The machine has no status flags, no condition codes and no predicate registers" (10_state
R22), and no instruction computes one. "A branch condition is an ordinary `Bool` Value on the operand
stack": this file holds that condition's check. -/

namespace Sys2Proof.Machine

/-- A popped condition "must be kind `Bool`" (43_jumps R122, R124). -/
def withCondition (v : Value) (s : State) (k : Bool → Result) : Result :=
  match v with
  | .bool b => k b
  | .u64 _ => s.raise .invalidInstructionArgument
  | .pointer _ => s.raise .invalidInstructionArgument

end Sys2Proof.Machine
end

