-- ==== Sys2Proof/Machine/Jumps.lean ====
section
/-! DEFINITION. `Jmp`, `JmpIf`, `JmpO` and `JmpIfO` (43_jumps R120 to R124): step 3 and step 4 of the
tick, on the state that step 2 left. Targets are absolute record indices and are not checked (R120,
R125). -/

namespace Sys2Proof.Machine

/-- `if taken : pc <- target`, "else leave the already-incremented `pc` unchanged" (R120). -/
def jumpIf (taken : Bool) (target : Word) (s : State) : State :=
  if taken then s.jumpTo target else s

/-- `Jmp U64(t)` (R121). -/
def execJmp (arg : Option Value) (s : State) : Result :=
  withTargetArg arg s fun t => .next (s.jumpTo t)

/-- `JmpIf U64(t)` (R122): the condition is popped whether or not the jump is taken. -/
def execJmpIf (arg : Option Value) (s : State) : Result :=
  withTargetArg arg s fun t =>
    s.withPop fun c s1 =>
      withCondition c s1 fun taken => .next (jumpIf taken t s1)

/-- `JmpO` (R123): the target is popped. -/
def execJmpO (arg : Option Value) (s : State) : Result :=
  withoutArg arg s
    (s.withPop fun v s1 =>
      withTarget v s1 fun t => .next (s1.jumpTo t))

/-- `JmpIfO` (R124): the address is popped, then the condition; then the address's kind is checked, then
the condition's; both always. -/
def execJmpIfO (arg : Option Value) (s : State) : Result :=
  withoutArg arg s
    (s.withPop fun a s1 =>
      s1.withPop fun c s2 =>
        withTarget a s2 fun t =>
          withCondition c s2 fun taken => .next (jumpIf taken t s2))

end Sys2Proof.Machine
end

