-- ==== Sys2Proof/Machine/NopPush.lean ====
section
/-! DEFINITION. `Nop` and `Push` (41_nop_push R100, R101): step 3 and step 4 of the tick, on the state
that step 2 left (its `pc` is already the old `pc` plus 1). -/

namespace Sys2Proof.Machine

/-- `Nop` (R100): "no effect". -/
def execNop (arg : Option Value) (s : State) : Result :=
  withoutArg arg s (.next s)

/-- `Push v` (R101): a copy of the argument, of any kind, becomes the new top. -/
def execPush (arg : Option Value) (s : State) : Result :=
  withArg arg s fun v => s.pushValue v

end Sys2Proof.Machine
end

