-- ==== Sys2Proof/Machine/Dispatch.lean ====
section
/-! DEFINITION. Steps 3 and 4 of the tick, by instruction (40_tick_cycle R84 to R86): "The set is closed". -/

namespace Sys2Proof.Machine

/-- `s` is the state after step 2, its `pc` already advanced (R83; log entry 11). -/
def exec (i : Instr) (s : State) : Host.Outcome State Fault Refusal :=
  match i with
  | .nop arg => Sys2Proof.Machine.execNop arg s
  | .push arg => Sys2Proof.Machine.execPush arg s
  | .add arg => Sys2Proof.Machine.execAdd arg s
  | .sub arg => Sys2Proof.Machine.execSub arg s
  | .jmp arg => Sys2Proof.Machine.execJmp arg s
  | .jmpIf arg => Sys2Proof.Machine.execJmpIf arg s
  | .jmpO arg => Sys2Proof.Machine.execJmpO arg s
  | .jmpIfO arg => Sys2Proof.Machine.execJmpIfO arg s

end Sys2Proof.Machine
end

