-- ==== Sys2Proof/Machine/Tick.lean ====
section
/-! DEFINITION. The whole tick with its result (40_tick_cycle R80 to R91), and where a program is placed
for the next tick to fetch. -/

namespace Sys2Proof.Machine

/-- The result of a tick: `ok`, or one error with its information word (R90). -/
inductive TickResult where
  | ok
  | error (e : Error)
  deriving DecidableEq, Repr

/-- What the tick returns after its step 4: `raise E` latches `E` and returns it (R91), so the latch it
leaves says it. -/
def resultOfLatch (fault : Option Error) : TickResult :=
  match fault with
  | none => .ok
  | some e => .error e

/-- Steps 2 to 4 of the tick on a fetched record (R83 to R86). The advance never wraps in a state
within R5's bound (10_state R18; log entry 5). -/
def advanceAndExec (i : Instr) (s : State) : Result :=
  if s.pc.toNat + 1 < 2 ^ 64 then exec i s.advancePc else .fault .programStoreTooLong

/-- `tick()` (R91): the state it leaves and the result it returns. -/
def tick (s : State) : Host.Outcome (State × TickResult) Fault Refusal :=
  match s.fault with
  | some e => .next (s, .error e)
  | none =>
    match s.fetch with
    | none => .next (s, .error { kind := .noMoreInstructions, info := s.pc })
    | some i =>
      match advanceAndExec i s with
      | .next t => .next (t, resultOfLatch t.fault)
      | .fault r => .fault r
      | .refused r => .refused r

/-- The state a tick leaves, without its result. -/
def stateOf (o : Host.Outcome (State × TickResult) Fault Refusal) : Result :=
  match o with
  | .next (t, _) => .next t
  | .fault r => .fault r
  | .refused r => .refused r

/-- `s` with the record `i` where the next tick fetches, and no latched error, so that the next tick
runs it: in place of the record at `pc`, or, where `pc` is outside the Program, as the whole Program at
`pc` 0 (R82; log entry 12). -/
def State.place (i : Instr) (s : State) : State :=
  if s.pc.toNat < s.prog.length then
    { s with prog := s.prog.set s.pc.toNat i, fault := none }
  else
    { s with prog := [i], pc := 0, fault := none }

end Sys2Proof.Machine
end

