-- ==== Sys2Proof/Machine/Step.lean ====
section
/-! DEFINITION. One step of the machine: the state one tick leaves (40_tick_cycle R80, R91). -/

namespace Sys2Proof.Machine

/-- One tick (R91). `tick` answers the tick's result as well. -/
def step (s : State) : Host.Outcome State Fault Refusal := stateOf (tick s)

/-- `s` with the instruction whose first bits are `w` where the next tick fetches (log entry 12); `s`
itself where the decoder refuses those bits. -/
def State.withFetchWord (s : State) (nbits w : Nat) : State :=
  match decodeTableWord nbits w with
  | none => s
  | some i => s.place i

end Sys2Proof.Machine
end

