-- ==== Sys2Proof/Machine/Written.lean ====
section
/-! DEFINITION. The written form of instructions and programs (30_encoding R70, R71): what this spec writes,
and reading it back. Text is a list of characters. No step of the machine uses it. -/

namespace Sys2Proof.Machine

/-- The mnemonics of R70, "exactly as the source's discriminant names". -/
def mnemonic : Opcode → List Char
  | .nop => "Nop".toList
  | .push => "Push".toList
  | .add => "Add".toList
  | .sub => "Sub".toList
  | .jmp => "Jmp".toList
  | .jmpIf => "JmpIf".toList
  | .jmpO => "JmpO".toList
  | .jmpIfO => "JmpIfO".toList

/-- `value` of R70, with a decimal number. -/
def writeValue : Value → List Char
  | .u64 n => "U64(".toList ++ Nat.toDigits 10 n.toNat ++ [')']
  | .pointer n => "Pointer(".toList ++ Nat.toDigits 10 n.toNat ++ [')']
  | .bool b => if b then "Bool(true)".toList else "Bool(false)".toList

/-- `instruction` of R70. -/
def writeInstr (i : Instr) : List Char :=
  match i.arg with
  | none => mnemonic i.op
  | some v => mnemonic i.op ++ ' ' :: writeValue v

/-- `, ` between two instructions (R70). -/
def writeRest : List Instr → List Char
  | [] => [']']
  | i :: p => ", ".toList ++ writeInstr i ++ writeRest p

/-- `program` of R70 in brackets; the empty Program is `[]` (30_encoding R68; log entry 13). -/
def writeProgramText : List Instr → List Char
  | [] => "[]".toList
  | i :: p => '[' :: writeInstr i ++ writeRest p

/-- `text` without this beginning, if it begins so. -/
def eat : List Char → List Char → Option (List Char)
  | [], text => some text
  | _ :: _, [] => none
  | a :: beginning, c :: text => if a = c then eat beginning text else none

/-- The value of a digit in base 10 or 16 (R70). -/
def digitValue (base : Nat) (c : Char) : Option Nat :=
  if '0' ≤ c ∧ c ≤ '9' then some (c.toNat - '0'.toNat)
  else if base = 16 ∧ 'a' ≤ c ∧ c ≤ 'f' then some (c.toNat - 'a'.toNat + 10)
  else if base = 16 ∧ 'A' ≤ c ∧ c ≤ 'F' then some (c.toNat - 'A'.toNat + 10)
  else none

/-- One digit or more; `acc` is `none` before the first. -/
def readDigits (base : Nat) : Option Nat → List Char → Option (Nat × List Char)
  | acc, [] => acc.map fun n => (n, [])
  | acc, c :: text =>
    match digitValue base c with
    | some d => readDigits base (some (acc.getD 0 * base + d)) text
    | none => acc.map fun n => (n, c :: text)

/-- `number` of R70, "0 .. 2^64 - 1", and the closing parenthesis. -/
def readNumber (text : List Char) : Option (Word × List Char) :=
  let digits :=
    match eat "0x".toList text with
    | some rest => readDigits 16 none rest
    | none => readDigits 10 none text
  match digits with
  | none => none
  | some (n, rest) =>
    if n < 2 ^ 64 then (eat [')'] rest).map fun rest => (BitVec.ofNat 64 n, rest) else none

/-- `value` of R70. -/
def readValue (text : List Char) : Option (Value × List Char) :=
  match eat "U64(".toList text with
  | some rest => (readNumber rest).map fun r => (.u64 r.1, r.2)
  | none =>
    match eat "Pointer(".toList text with
    | some rest => (readNumber rest).map fun r => (.pointer r.1, r.2)
    | none =>
      match eat "Bool(true)".toList text with
      | some rest => some (.bool true, rest)
      | none => (eat "Bool(false)".toList text).map fun rest => (.bool false, rest)

/-- The first of these mnemonics that the text begins with. -/
def readMnemonicOf : List Opcode → List Char → Option (Opcode × List Char)
  | [], _ => none
  | op :: ops, text =>
    match eat (mnemonic op) text with
    | some rest => some (op, rest)
    | none => readMnemonicOf ops text

/-- `mnemonic` of R70: of two that fit, the longer. -/
def readMnemonic (text : List Char) : Option (Opcode × List Char) :=
  readMnemonicOf [.jmpIfO, .jmpIf, .jmpO, .jmp, .nop, .push, .add, .sub] text

/-- `instruction` of R70: a mnemonic of arity 0 alone, one of arity 1 "followed by its value". -/
def readInstr (text : List Char) : Option (Instr × List Char) :=
  match readMnemonic text with
  | none => none
  | some (op, rest) =>
    if op.arity = 1 then
      match eat [' '] rest with
      | none => none
      | some rest => (readValue rest).map fun r => (op.record (some r.1), r.2)
    else some (op.record none, rest)

/-- Instructions up to the closing bracket (R70). The fuel bounds their number. -/
def readRest : Nat → List Char → Option (List Instr)
  | 0, _ => none
  | fuel + 1, text =>
    if text = [']'] then some []
    else
      match eat ", ".toList text with
      | none => none
      | some rest =>
        match readInstr rest with
        | none => none
        | some (i, rest) => (readRest fuel rest).map fun p => i :: p

/-- "one instruction per line" (R70). The fuel bounds their number. -/
def readLines : Nat → List Char → Option (List Instr)
  | 0, _ => none
  | fuel + 1, text =>
    match readInstr text with
    | none => none
    | some (i, rest) =>
      if rest = [] ∨ rest = ['\n'] then some [i]
      else
        match eat ['\n'] rest with
        | none => none
        | some rest => (readLines fuel rest).map fun p => i :: p

/-- `program` of R70, in brackets or one instruction per line. -/
def readProgramText (text : List Char) : Option (List Instr) :=
  if text = "[]".toList then some []
  else
    match eat ['['] text with
    | some rest =>
      match readInstr rest with
      | none => none
      | some (i, rest) => (readRest (rest.length + 1) rest).map fun p => i :: p
    | none => readLines (text.length + 1) text

end Sys2Proof.Machine
end

