-- ==== Sys2Proof/Machine/Commands.lean ====
section
/-! DEFINITION. The host interface: its commands and what it may observe (70_reset R170 to R176, 10_state
R24, R27). -/

namespace Sys2Proof.Machine

/-- A Program the host may hand over: within `PROG_CAPACITY`, and fewer than 2^64 records (00_scope R5,
70_reset R170). -/
def admits (c : Config) (p : List Instr) : Bool :=
  decide (p.length < 2 ^ 64) && fits c.progCapacity p.length

/-- The commands of R175 that change the engine. -/
inductive Command where
  | load (stream : Stream)
  | reset (p : List Instr)
  | tick
  deriving DecidableEq, Repr

/-- What the host gets back (R175). -/
inductive Answer where
  | done
  | loadFailed (e : DecodeError)
  | ticked (r : TickResult)
  deriving DecidableEq, Repr

/-- `Reset(P)` (R170). A Program the host may not hand over is refused (log entry 8). -/
def resetCommand (p : List Instr) (s : State) : Host.Outcome (State × Answer) Fault Refusal :=
  if admits s.config p then .next (State.resetTo s.config p, .done)
  else .refused .programTooLong

/-- `Load(stream)` (R173): decode the whole stream, then reset; if decoding fails the engine "keeps
whatever state it had". -/
def loadCommand (stream : Stream) (s : State) : Host.Outcome (State × Answer) Fault Refusal :=
  match decodeProgram s.config.progCapacity stream with
  | .error e => .next (s, .loadFailed e)
  | .ok p => resetCommand p s

/-- One command of the host (R175). -/
def command (c : Command) (s : State) : Host.Outcome (State × Answer) Fault Refusal :=
  match c with
  | .load stream => loadCommand stream s
  | .reset p => resetCommand p s
  | .tick =>
    match tick s with
    | .next (t, r) => .next (t, .ticked r)
    | .fault r => .fault r
    | .refused r => .refused r

/-- The error an answer carries, as a kind and an information word (60_exceptions R140, R148). -/
def answerError : Answer → Option Error
  | .done => none
  | .loadFailed e => some e.toError
  | .ticked .ok => none
  | .ticked (.error e) => some e

/-- The number of an answer on a result port: 0 for no error (60_exceptions R149). -/
def answerCode (a : Answer) : Nat :=
  match answerError a with
  | none => 0
  | some e => e.kind.code

/-- The two states of the engine (10_state R24). -/
inductive Engine where
  | running
  | halted
  deriving DecidableEq, Repr

/-- `Running`: `fault = none` and `pc < len(Prog)`; else `Halted` (10_state R24). -/
def State.engine (s : State) : Engine :=
  if s.fault.isNone && decide (s.pc.toNat < s.prog.length) then .running else .halted

/-- What the host may observe between ticks (10_state R27, 70_reset R175). -/
structure Observation where
  pc : Word
  stack : List Value
  depth : Nat
  fault : Option Error
  engine : Engine
  deriving DecidableEq, Repr

/-- The observe command (70_reset R175): it has no effect. -/
def State.observe (s : State) : Observation :=
  { pc := s.pc, stack := s.stack, depth := s.depth, fault := s.fault, engine := s.engine }

end Sys2Proof.Machine
end

