-- ==== Sys2Proof/Safety.lean ====
section
/-! DEFINITION. What statements about the machine are stated in: the invariant of every state a reset can
lead to, when an instruction executes normally, when a jump is taken, and how a run has ended (70_reset R176). -/

namespace Sys2Proof.Machine

/-- The operand stack is within `STACK_CAPACITY` (10_state R20). -/
abbrev State.StackFits (s : State) : Prop := fits s.config.stackCapacity s.stack.length = true

/-- The program store is within R5's bounds: fewer than 2^64 records, and within `PROG_CAPACITY`. -/
abbrev State.ProgFits (s : State) : Prop := admits s.config s.prog = true

/-- What `fault` may hold: one of the fatal kinds, with the information word 0 (10_state R23). -/
def latchWellFormed (fault : Option Error) : Bool :=
  match fault with
  | none => true
  | some e => e.kind.fatal && e.info == 0

/-- What holds after every reset and is kept by every tick: `PROG_CAPACITY` as R5 says, the program store and the stack within
their capacities (R5, R20), the heap empty (R21), the latch as R23 says. -/
structure State.Inv (s : State) : Prop where
  configFits : s.config.wellFormed = true
  progFits : s.ProgFits
  stackFits : s.StackFits
  heapEmpty : s.heap = []
  latchFatal : latchWellFormed s.fault = true

/-- A state in which no value lies where an instruction needs one of another kind: the operands of
step 4, from the top of the stack down (R91). -/
def operandsReady (i : Instr) (fromTop : List Value) : Bool :=
  match i, fromTop with
  | .add _, .u64 _ :: .u64 _ :: _ => true
  | .add _, .pointer _ :: .pointer _ :: _ => true
  | .sub _, .u64 _ :: .u64 _ :: _ => true
  | .sub _, .pointer _ :: .pointer _ :: _ => true
  | .jmpIf _, .bool _ :: _ => true
  | .jmpO _, .u64 _ :: _ => true
  | .jmpIfO _, .u64 _ :: .bool _ :: _ => true
  | .nop _, _ => true
  | .push _, _ => true
  | .jmp _, _ => true
  | _, _ => false

/-- The instruction completes: its record is valid (R85), its operands are there and of the kinds it
needs (R91), and a `Push` finds room (R88). -/
def ready (i : Instr) (s : State) : Bool :=
  valid i && operandsReady i s.stack.reverse &&
    (match i with
     | .push _ => s.hasRoom
     | _ => true)

/-- How many values an instruction pops at most (R91). -/
def popsOf : Instr → Nat
  | .nop _ => 0
  | .push _ => 0
  | .add _ => 2
  | .sub _ => 2
  | .jmp _ => 0
  | .jmpIf _ => 1
  | .jmpO _ => 1
  | .jmpIfO _ => 2

/-- `i` is a jump that, with this operand stack, is taken to `target` and leaves `rest` of the stack: `Jmp`
and `JmpIf` to their argument, `JmpO` and `JmpIfO` to the `U64` on top, the conditional ones with the
condition `Bool(true)` (43_jumps R120 to R124). -/
abbrev IsTakenJump (i : Instr) (stack rest : List Value) (target : Word) : Prop :=
  (i = .jmp (some (.u64 target)) ∧ stack = rest) ∨
  (i = .jmpIf (some (.u64 target)) ∧ stack = rest ++ [.bool true]) ∨
  (i = .jmpO none ∧ stack = rest ++ [.u64 target]) ∨
  (i = .jmpIfO none ∧ stack = rest ++ [.bool true, .u64 target])

/-- A run has ended normally: the tick answers `NoMoreInstructions` (R176). -/
def State.endedNormally (s : State) : Bool :=
  s.fault.isNone && decide (s.prog.length ≤ s.pc.toNat)

/-- A run has ended in a fault (R176). -/
def State.endedInFault (s : State) : Bool := s.fault.isSome

end Sys2Proof.Machine
end

