-- ==== Sys2Proof/Certificates/Slice0/Obligations.lean ====
section
/-! DEFINITION. The statements for the provers. Each docstring names the rules of spec/ it formalises; a
clause that rests on a decision the spec marks as its own, or on a choice of the model, says so and names
the decision or the log entry. Throughout, that `pc` has 64 bits is decision D3, that `fault` latches a
fatal error decision D9, and what an information word holds decisions D11 and D13 (log entry 14). -/

open Sys2Proof Sys2Proof.Machine

/-! ## The codec -/

/-- R59 and R64, R65: decoding what `encodeInstruction` wrote gives the record back, whatever follows it
in the stream, and leaves the stream exactly past it. The byte order is decision D1, the byte written for
true decision D10 (log entry 14). -/
def Obligations.DecodeOfEncodeIsTheRecord : Prop :=
  ∀ (i : Instr) (bytes rest : List Byte) (off : Nat) (e : StreamEnd),
    encode i = .ok bytes →
      decodeInstruction ⟨bytes ++ rest, off, e⟩ = .ok (i, ⟨rest, off + bytes.length, e⟩)

/-- The round-trip law of R66 on the encoder's whole domain, programs with `Jmp Bool(..)` records included:
every such program is encoded, and decodes to itself. For structurally valid programs R66 quotes the law;
that it holds on the whole domain the spec derives ("[derived: from rule R58, rule R64 and rule R65]").
The byte order is decision D1, the byte written for true decision D10 (log entry 14). -/
def Obligations.ProgramRoundTrip : Prop :=
  ∀ p : List Instr, programWellFormed p = true →
    ∃ bytes, encodeProgram p = .ok bytes ∧ decodeProgram none (Stream.ofBytes bytes) = .ok p

/-- R65: the encoder answers on exactly the records whose argument presence matches the arity, with the
opcode byte first and 1, 3 or 10 bytes in all (R52); it refuses the others (decision D28). -/
def Obligations.EncoderDomainAndLengths : Prop :=
  ∀ i : Instr,
    (i.wellFormed = true →
      ∃ rest, encode i = .ok (i.op.byte :: rest) ∧
        (rest.length = 0 ∧ i.arg = none ∨
          rest.length = 2 ∧ i.arg.map Value.kind = some .bool ∨
          rest.length = 9 ∧ (i.arg.map Value.kind = some .u64 ∨ i.arg.map Value.kind = some .pointer))) ∧
    (i.wellFormed = false → encode i = .error .refusedRecord)

/-- R53: an opcode byte of 8 or more fails with `InvalidInstruction`, at once and after any program,
of which nothing is returned. That `0x80` to `0xFF` are treated no differently is decision D27. -/
def Obligations.UnknownOpcodeByteIsRejected : Prop :=
  ∀ (b : Byte) (rest : List Byte), 8 ≤ b.toNat →
    (∀ (off : Nat) (e : StreamEnd),
      decodeInstruction ⟨b :: rest, off, e⟩ = .error .invalidInstruction) ∧
    (∀ (p : List Instr) (bytes : List Byte) (e : StreamEnd), encodeProgram p = .ok bytes →
      decodeProgram none ⟨bytes ++ b :: rest, 0, e⟩ = .error .invalidInstruction)

/-- R54 and R58: a kind byte of 3 or more fails with `InvalidObject`, before any payload is read,
reporting the offset of that byte (which offset is decision D11). -/
def Obligations.UnknownKindByteIsRejected : Prop :=
  ∀ (k : Byte) (rest : List Byte) (off : Nat) (e : StreamEnd), 3 ≤ k.toNat →
    decodeValue ⟨k :: rest, off, e⟩ = .error (.invalidObject off) ∧
    ∀ op : Opcode, op.arity = 1 →
      decodeInstruction ⟨op.byte :: k :: rest, off, e⟩ = .error (.invalidObject (off + 1))

/-- R51: payload byte `0x00` decodes to `Bool(false)`, every other byte to `Bool(true)`; the byte is not
kept (decision D10). -/
def Obligations.BoolPayloadByte : Prop :=
  ∀ (b : Byte) (rest : List Byte) (off : Nat) (e : StreamEnd),
    decodeValue ⟨2 :: b :: rest, off, e⟩ =
      .ok (.bool (decide (b.toNat ≠ 0)), ⟨rest, off + 2, e⟩)

/-- R50: the eight payload bytes of kind 0 or 1 give
`b0 + 256*b1 + 256^2*b2 + ... + 256^7*b7` (little-endian is decision D1). -/
def Obligations.IntegerPayloadIsLittleEndian : Prop :=
  ∀ (b0 b1 b2 b3 b4 b5 b6 b7 : Byte) (rest : List Byte) (off : Nat) (e : StreamEnd),
    ∃ n : Word,
      n.toNat = b0.toNat + 256 * b1.toNat + 256 ^ 2 * b2.toNat + 256 ^ 3 * b3.toNat +
        256 ^ 4 * b4.toNat + 256 ^ 5 * b5.toNat + 256 ^ 6 * b6.toNat + 256 ^ 7 * b7.toNat ∧
      decodeValue ⟨0 :: b0 :: b1 :: b2 :: b3 :: b4 :: b5 :: b6 :: b7 :: rest, off, e⟩ =
        .ok (.u64 n, ⟨rest, off + 9, e⟩) ∧
      decodeValue ⟨1 :: b0 :: b1 :: b2 :: b3 :: b4 :: b5 :: b6 :: b7 :: rest, off, e⟩ =
        .ok (.pointer n, ⟨rest, off + 9, e⟩)

/-- R58 to R60: a stream that stops anywhere inside an encoded instruction gives `UnexpectedEOF` at its
end, or `FileError` with the I/O layer's text where a read failed (what a read answers is decision D14;
the form of the stream log entry 6). -/
def Obligations.TruncatedInstructionFails : Prop :=
  ∀ (i : Instr) (bytes : List Byte) (n off : Nat) (text : String),
    encode i = .ok bytes → 0 < n → n < bytes.length →
      decodeInstruction ⟨bytes.take n, off, .eos⟩ = .error .unexpectedEOF ∧
      decodeInstruction ⟨bytes.take n, off, .ioerr text⟩ = .error (.fileError text) ∧
      decodeProgram none ⟨bytes.take n, off, .eos⟩ = .error .unexpectedEOF ∧
      decodeProgram none ⟨bytes.take n, off, .ioerr text⟩ = .error (.fileError text)

/-- Words written out from the encodings of R46, R47: the byte streams of test vectors D3, D4, D8 followed
by D9, and D10 (table D of 95_test_vectors; byte order: decision D1, byte `0xFF` as true: decision D10).
The clauses on `decodeTableWord` rest on log entry 12 (DESIGN CHOICE): a table word shorter than its
instruction is followed by zeros, so that byte `01`, which alone is `UnexpectedEOF` (vector D15), stands
for `Push U64(0)`. -/
def Obligations.DecodedWordsOfTheTable : Prop :=
  decodeProgram none (Stream.ofBytes [0x00, 0x02, 0x03, 0x06, 0x07]) =
      .ok [.nop none, .add none, .sub none, .jmpO none, .jmpIfO none] ∧
  decodeProgram none (Stream.ofBytes [0x01, 0x00, 0x08, 0x07, 0x06, 0x05, 0x04, 0x03, 0x02, 0x01]) =
      .ok [.push (some (.u64 0x0102030405060708))] ∧
  decodeProgram none (Stream.ofBytes [0x01, 0x02, 0xFF, 0x04, 0x02, 0x01]) =
      .ok [.push (some (.bool true)), .jmp (some (.bool true))] ∧
  decodeProgram none (Stream.ofBytes [0x05, 0x01, 0x00, 0x00, 0x00, 0x00, 0x00, 0x00, 0x00, 0x00]) =
      .ok [.jmpIf (some (.pointer 0))] ∧
  decodeTableWord 8 0x00 = some (.nop none) ∧ decodeTableWord 8 0x01 = some (.push (some (.u64 0))) ∧
  decodeTableWord 8 0x07 = some (.jmpIfO none) ∧ decodeTableWord 8 0x08 = none

/-- R52, R55, R58: an instruction that decodes takes exactly 1, 3 or 10 bytes off the front of the stream,
and its argument's presence matches its arity. -/
def Obligations.DecodeConsumesOneInstruction : Prop :=
  ∀ (st st' : Stream) (i : Instr), decodeInstruction st = .ok (i, st') →
    i.wellFormed = true ∧
    ∃ n, (n = 1 ∨ n = 3 ∨ n = 10) ∧ n ≤ st.bytes.length ∧
      st' = ⟨st.bytes.drop n, st.off + n, st.ending⟩

/-- R61: the decoder as a state machine ends, with the answer of `decodeProgram` (R60), under every
`PROG_CAPACITY` (decision D5). R61 is marked as derived by the spec; the bound on the loop of
`decodeProgram` is log entry 15. -/
def Obligations.StateMachineDecodesAsTheFunction : Prop :=
  ∀ (capacity : Option Nat) (st : Stream),
    ∃ k, ((DecoderState.start st).run capacity k).result = some (decodeProgram capacity st) ∧
      ∀ k', k ≤ k' →
        (DecoderState.start st).run capacity k' = (DecoderState.start st).run capacity k

/-- R67: encoding a decoded instruction gives back the bytes it was decoded from exactly when a `Bool`
payload byte among them is `0x00` or `0x01` (derived by the spec from R51 and R64; the byte of true is
decision D10). -/
def Obligations.ReencodingRestoresCanonicalBytes : Prop :=
  ∀ (st st' : Stream) (i : Instr) (n : Nat),
    decodeInstruction st = .ok (i, st') → st'.off = st.off + n →
      (encode i = .ok (st.bytes.take n) ↔
        ∀ b, st.bytes.take n = [i.op.byte, 2, b] → b = 0 ∨ b = 1)

/-- R60, R150: a finite `PROG_CAPACITY` changes nothing for programs within it and gives
`ProgramOverflow` for longer ones (the parameter and the error are decision D5). -/
def Obligations.ProgramCapacityBoundsTheDecoder : Prop :=
  ∀ (st : Stream) (p : List Instr) (capacity : Nat), decodeProgram none st = .ok p →
    decodeProgram (some capacity) st =
      if p.length ≤ capacity then .ok p else .error .programOverflow

/-- R64, R65, R175: the writer appends the encoded program to the output stream; a short write fails with
`UnexpectedEOF` at the end of the stream, else with `FileError`; a program with a record the encoder
refuses is not written (the refusal is decision D28). The stream's room, and that the refusal comes before
any short write, are the model's choice (log entry 9, DESIGN CHOICE). -/
def Obligations.WriterAppendsTheEncoding : Prop :=
  (∀ (p : List Instr) (bytes : List Byte) (k : Sink), encodeProgram p = .ok bytes →
    (fits k.room bytes.length = true → ∃ k', writeProgram p k = .ok k' ∧
      k'.written = k.written ++ bytes) ∧
    (fits k.room bytes.length = false → k.ending = .eos → writeProgram p k = .error .unexpectedEOF) ∧
    (∀ text, fits k.room bytes.length = false → k.ending = .ioerr text →
      writeProgram p k = .error (.fileError text))) ∧
  (∀ (p : List Instr) (k : Sink), programWellFormed p = false →
    writeProgram p k = .error .refusedRecord)

/-- R70: a program in the encoder's domain, written in brackets with decimal numbers, reads back as itself
(the reading of the notation is the model's: decision D20, log entry 13). -/
def Obligations.WrittenProgramReadsBack : Prop :=
  ∀ p : List Instr, programWellFormed p = true → readProgramText (writeProgramText p) = some p

/-! ## The tick -/

/-- R82, R83: when `fault = none` and `pc` is in the Program, a step is the fetched record executed on the
state whose `pc` is one more; the advance does not wrap in a state within R5's bound (log entry 11). -/
def Obligations.StepRunsTheFetchedRecord : Prop :=
  ∀ (s : State) (i : Instr), s.ProgFits → s.fault = none → s.fetch = some i →
    step s = exec i s.advancePc ∧ s.advancePc = { s with pc := s.pc + 1 } ∧
    s.advancePc.pc.toNat = s.pc.toNat + 1

/-- A step runs the decoded instruction: where the bytes of a table word decode to `i`, the next step of
the state with that word placed is `i` executed on that state, its `pc` advanced (log entry 12). -/
def Obligations.StepRunsThePlacedInstruction : Prop :=
  ∀ (s : State) (nbits w : Nat) (i : Instr), s.ProgFits → decodeTableWord nbits w = some i →
    step (s.withFetchWord nbits w) = exec i (s.withFetchWord nbits w).advancePc

/-- R146, R82 (step 1), R81 (step 0): a tick answers `NoMoreInstructions` exactly when no fault is latched and
`pc >= len(Prog)`, with the offending `pc`, and leaves the state as it was, so the next tick does the
same; no other error leaves the latch empty, so no other ends a run without a fault. The latch and its
check before step 1 are decision D9, that this error is not latched decision D26 (log entry 14). -/
def Obligations.NoMoreInstructionsExactlyAtTheEnd : Prop :=
  ∀ (s : State), s.Inv →
    (s.fault = none → s.prog.length ≤ s.pc.toNat →
      tick s = .next (s, .error ⟨.noMoreInstructions, s.pc⟩) ∧ step s = .next s) ∧
    (∀ (t : State) (info : Word), tick s = .next (t, .error ⟨.noMoreInstructions, info⟩) →
      s.fault = none ∧ s.prog.length ≤ s.pc.toNat ∧ info = s.pc ∧ t = s) ∧
    (∀ (t : State) (e : Error), tick s = .next (t, .error e) → t.fault = none →
      e = ⟨.noMoreInstructions, s.pc⟩)

/-- R81: with a latched fault the tick changes nothing and returns it, before step 1 (the spec's decision
D9). -/
def Obligations.LatchedFaultIsReportedAgain : Prop :=
  ∀ (s : State) (e : Error), s.fault = some e →
    tick s = .next (s, .error e) ∧ step s = .next s

/-- R90, R91: a tick that runs a record returns `ok` exactly when it leaves no latched fault, and
otherwise the fault it leaves latched, a fatal one with the information word 0 (the latch is the spec's
decision D9, the word decision D13). -/
def Obligations.TickResultIsWhatItLatches : Prop :=
  ∀ (s t : State) (i : Instr) (r : TickResult), s.fault = none → s.fetch = some i →
    tick s = .next (t, r) →
      (r = .ok ∧ t.fault = none) ∨
      ∃ k : ErrorKind, k.fatal = true ∧ r = .error ⟨k, 0⟩ ∧ t.fault = some ⟨k, 0⟩

/-- R176: a tick that answers an error ends the run: normally on `NoMoreInstructions`, the state
unchanged by it; otherwise in a fault, a fatal error, which the latch then holds (decisions D9, D26;
its information word 0 is decision D13). -/
def Obligations.AnErrorEndsTheRun : Prop :=
  ∀ (s t : State) (e : Error), s.Inv → tick s = .next (t, .error e) →
    t.engine = .halted ∧
    (e.kind = .noMoreInstructions → t.endedNormally = true ∧ t = s) ∧
    (e.kind ≠ .noMoreInstructions →
      t.endedInFault = true ∧ t.fault = some e ∧ e.kind.fatal = true ∧ e.info = 0)

/-- R26, R93: in every state within R5's bound a step answers a next state: `tick` is a function of the
state and never stops. Errors of the machine are next states (log entry 4; the bound is log entry 5). -/
def Obligations.EveryStepAnswersANextState : Prop :=
  (∀ (i : Instr) (s : State), ∃ t, exec i s = .next t) ∧
  ∀ s : State, s.ProgFits → ∃ t, step s = .next t

/-- R24: "Halted has no transition out but reset": however many steps are made, a Halted engine stays in
the same state (for a latched fault this is decision D9). -/
def Obligations.HaltedIsTerminal : Prop :=
  ∀ (n : Nat) (s : State), s.engine = .halted → core.run n s = .next s

/-- R156: a latched fault is never overwritten: every state reached from one in which it is latched holds
the same (derived by the spec; the latch is decision D9). -/
def Obligations.FirstFaultIsKept : Prop :=
  ∀ (n : Nat) (s t : State) (e : Error), s.fault = some e → core.run n s = .next t →
    t.fault = some e

/-- R125: each of the four jumps, taken to a target out of the Program, completes with `ok` and `pc` at the
target; the engine is then Halted, and the next tick answers `NoMoreInstructions` with the target and
changes nothing (derived by the spec from R120 and R82). -/
def Obligations.JumpOutOfTheProgramCompletes : Prop :=
  ∀ (s : State) (i : Instr) (rest : List Value) (target : Word), s.ProgFits → s.fault = none →
    s.fetch = some i → IsTakenJump i s.stack rest target → s.prog.length ≤ target.toNat →
      tick s = .next ({ s with stack := rest, pc := target }, .ok) ∧
      ({ s with stack := rest, pc := target } : State).engine = .halted ∧
      tick { s with stack := rest, pc := target } =
        .next ({ s with stack := rest, pc := target }, .error ⟨.noMoreInstructions, target⟩)

/-! ## The instructions, on the state step 2 left -/

/-- R100, `Nop`: its byte; no effect; an argument fails validation; at the last index the engine is
Halted after it (the latch that holds the failure is decision D9). -/
def Obligations.NopHasNoEffect : Prop :=
  encode (.nop none) = .ok [0x00] ∧
  (∀ s : State, exec (.nop none) s = .next s) ∧
  (∀ (s : State) (v : Value), exec (.nop (some v)) s = .next (s.latch .invalidInstruction)) ∧
  (∀ s : State, s.ProgFits → s.fault = none → s.fetch = some (.nop none) →
    tick s = .next ({ s with pc := s.pc + 1 }, .ok) ∧
    (s.pc.toNat + 1 = s.prog.length →
      ({ s with pc := s.pc + 1 } : State).engine = .halted ∧
      tick { s with pc := s.pc + 1 } =
        .next ({ s with pc := s.pc + 1 },
          .error ⟨.noMoreInstructions, BitVec.ofNat 64 s.prog.length⟩)))

/-- R101, `Push v`: its encodings; a copy of the argument, of any kind, becomes the new top and nothing
else changes; an absent argument fails validation. With a finite `STACK_CAPACITY` (decision D4, log entry
10) there must be room: without it see OverflowExactlyWhenFull. The latch that holds the failure is decision
D9, the order of the payload bytes decision D1, the byte `01` for true decision D10 (log entry 14). -/
def Obligations.PushAppendsItsArgument : Prop :=
  (∀ n : Word, encode (.push (some (.u64 n))) = .ok ([0x01, 0x00] ++ bytesOfWord n) ∧
    encode (.push (some (.pointer n))) = .ok ([0x01, 0x01] ++ bytesOfWord n)) ∧
  encode (.push (some (.bool false))) = .ok [0x01, 0x02, 0x00] ∧
  encode (.push (some (.bool true))) = .ok [0x01, 0x02, 0x01] ∧
  (∀ (s : State) (v : Value), s.hasRoom = true →
    exec (.push (some v)) s = .next { s with stack := s.stack ++ [v] }) ∧
  (∀ (s : State) (v : Value), s.config.stackCapacity = none →
    exec (.push (some v)) s = .next { s with stack := s.stack ++ [v] }) ∧
  (∀ s : State, exec (.push none) s = .next (s.latch .invalidInstruction))

/-- R111, `Add`: its byte; on two `U64` or two `Pointer` on top of the stack the sum modulo 2^64 of the
same kind replaces them, the rest of the state unchanged; every exception in its order, with what it
leaves. That popped values stay popped is decision D7, that both pops come before the kind checks decision
D8, the latch decision D9 (log entry 14). -/
def Obligations.AddReplacesTheTwoTopValues : Prop :=
  encode (.add none) = .ok [0x02] ∧
  (∀ (s : State) (r : List Value) (a b : Word), s.StackFits → s.stack = r ++ [.u64 a, .u64 b] →
    ∃ c : Word, c.toNat = (a.toNat + b.toNat) % 2 ^ 64 ∧
      exec (.add none) s = .next { s with stack := r ++ [.u64 c] }) ∧
  (∀ (s : State) (r : List Value) (a b : Word), s.StackFits →
    s.stack = r ++ [.pointer a, .pointer b] →
    ∃ c : Word, c.toNat = (a.toNat + b.toNat) % 2 ^ 64 ∧
      exec (.add none) s = .next { s with stack := r ++ [.pointer c] }) ∧
  (∀ (s : State) (v : Value), exec (.add (some v)) s = .next (s.latch .invalidInstruction)) ∧
  (∀ s : State, s.stack = [] → exec (.add none) s = .next (s.latch .stackUnderflow)) ∧
  (∀ (s : State) (v : Value), s.stack = [v] →
    exec (.add none) s = .next (({ s with stack := [] } : State).latch .stackUnderflow)) ∧
  (∀ (s : State) (r : List Value) (lhs rhs : Value), s.stack = r ++ [lhs, rhs] →
    (lhs.kind = .bool ∨ rhs.kind = .bool ∨ lhs.kind ≠ rhs.kind) →
    exec (.add none) s = .next (({ s with stack := r } : State).latch .invalidOperator))

/-- R112, `Sub`: its byte; on two `U64` or two `Pointer` on top of the stack the difference modulo 2^64,
the deeper value minus the top, replaces them, the rest of the state unchanged; every exception in its
order, with what it leaves. That popped values stay popped is decision D7, that both pops come before the
kind checks decision D8, the latch decision D9 (log entry 14). -/
def Obligations.SubReplacesTheTwoTopValues : Prop :=
  encode (.sub none) = .ok [0x03] ∧
  (∀ (s : State) (r : List Value) (a b : Word), s.StackFits → s.stack = r ++ [.u64 a, .u64 b] →
    ∃ c : Word, (c.toNat : Int) = ((a.toNat : Int) - b.toNat) % 2 ^ 64 ∧
      exec (.sub none) s = .next { s with stack := r ++ [.u64 c] }) ∧
  (∀ (s : State) (r : List Value) (a b : Word), s.StackFits →
    s.stack = r ++ [.pointer a, .pointer b] →
    ∃ c : Word, (c.toNat : Int) = ((a.toNat : Int) - b.toNat) % 2 ^ 64 ∧
      exec (.sub none) s = .next { s with stack := r ++ [.pointer c] }) ∧
  (∀ (s : State) (v : Value), exec (.sub (some v)) s = .next (s.latch .invalidInstruction)) ∧
  (∀ s : State, s.stack = [] → exec (.sub none) s = .next (s.latch .stackUnderflow)) ∧
  (∀ (s : State) (v : Value), s.stack = [v] →
    exec (.sub none) s = .next (({ s with stack := [] } : State).latch .stackUnderflow)) ∧
  (∀ (s : State) (r : List Value) (lhs rhs : Value), s.stack = r ++ [lhs, rhs] →
    (lhs.kind = .bool ∨ rhs.kind = .bool ∨ lhs.kind ≠ rhs.kind) →
    exec (.sub none) s = .next (({ s with stack := r } : State).latch .invalidOperator))

/-- R121, `Jmp U64(t)`: its encoding, and those of the records that fail validation; `pc` becomes the
argument and nothing else changes; any other argument, or none, fails validation (the latch that holds the
failure is decision D9, the byte order decision D1). -/
def Obligations.JmpSetsPc : Prop :=
  (∀ v : Value, encode (.jmp (some v)) = .ok (0x04 :: encodeValue v)) ∧
  (∀ t : Word, encode (.jmp (some (.u64 t))) = .ok ([0x04, 0x00] ++ bytesOfWord t)) ∧
  (∀ (s : State) (t : Word), exec (.jmp (some (.u64 t))) s = .next { s with pc := t }) ∧
  (∀ (s : State) (arg : Option Value), arg.map Value.kind ≠ some .u64 →
    exec (.jmp arg) s = .next (s.latch .invalidInstruction))

/-- R122, `JmpIf U64(t)`: its encoding; a `Bool` on top is popped and `pc` becomes the argument if it is
true; every exception in its order, with what it leaves. That a condition of the wrong kind stays popped is
decision D7, the latch decision D9, the byte order decision D1 (log entry 14). -/
def Obligations.JmpIfPopsTheCondition : Prop :=
  (∀ t : Word, encode (.jmpIf (some (.u64 t))) = .ok ([0x05, 0x00] ++ bytesOfWord t)) ∧
  (∀ (s : State) (t : Word) (r : List Value), s.stack = r ++ [.bool true] →
    exec (.jmpIf (some (.u64 t))) s = .next { s with stack := r, pc := t }) ∧
  (∀ (s : State) (t : Word) (r : List Value), s.stack = r ++ [.bool false] →
    exec (.jmpIf (some (.u64 t))) s = .next { s with stack := r }) ∧
  (∀ (s : State) (arg : Option Value), arg.map Value.kind ≠ some .u64 →
    exec (.jmpIf arg) s = .next (s.latch .invalidInstruction)) ∧
  (∀ (s : State) (t : Word), s.stack = [] →
    exec (.jmpIf (some (.u64 t))) s = .next (s.latch .stackUnderflow)) ∧
  (∀ (s : State) (t : Word) (r : List Value) (c : Value), s.stack = r ++ [c] → c.kind ≠ .bool →
    exec (.jmpIf (some (.u64 t))) s =
      .next (({ s with stack := r } : State).latch .invalidInstructionArgument))

/-- R123, `JmpO`: its byte; a `U64` on top is popped and becomes `pc`; every exception in its order, with
what it leaves. That a target of the wrong kind stays popped is decision D7, the latch decision D9 (log
entry 14). -/
def Obligations.JmpOPopsTheTarget : Prop :=
  encode (.jmpO none) = .ok [0x06] ∧
  (∀ (s : State) (t : Word) (r : List Value), s.stack = r ++ [.u64 t] →
    exec (.jmpO none) s = .next { s with stack := r, pc := t }) ∧
  (∀ (s : State) (v : Value), exec (.jmpO (some v)) s = .next (s.latch .invalidInstruction)) ∧
  (∀ s : State, s.stack = [] → exec (.jmpO none) s = .next (s.latch .stackUnderflow)) ∧
  (∀ (s : State) (r : List Value) (v : Value), s.stack = r ++ [v] → v.kind ≠ .u64 →
    exec (.jmpO none) s =
      .next (({ s with stack := r } : State).latch .invalidInstructionArgument))

/-- R124, `JmpIfO`: its byte; the address on top and the condition under it are popped and `pc` becomes
the address if the condition is true; every exception. That both pops come before both kind checks is the
spec's decision D8, that the address is checked whatever the condition decision D23, that popped values
stay popped decision D7, the latch decision D9 (log entry 14). -/
def Obligations.JmpIfOPopsAddressThenCondition : Prop :=
  encode (.jmpIfO none) = .ok [0x07] ∧
  (∀ (s : State) (t : Word) (r : List Value), s.stack = r ++ [.bool true, .u64 t] →
    exec (.jmpIfO none) s = .next { s with stack := r, pc := t }) ∧
  (∀ (s : State) (t : Word) (r : List Value), s.stack = r ++ [.bool false, .u64 t] →
    exec (.jmpIfO none) s = .next { s with stack := r }) ∧
  (∀ (s : State) (v : Value), exec (.jmpIfO (some v)) s = .next (s.latch .invalidInstruction)) ∧
  (∀ s : State, s.stack = [] → exec (.jmpIfO none) s = .next (s.latch .stackUnderflow)) ∧
  (∀ (s : State) (v : Value), s.stack = [v] →
    exec (.jmpIfO none) s = .next (({ s with stack := [] } : State).latch .stackUnderflow)) ∧
  (∀ (s : State) (r : List Value) (c a : Value), s.stack = r ++ [c, a] →
    (a.kind ≠ .u64 ∨ c.kind ≠ .bool) →
    exec (.jmpIfO none) s =
      .next (({ s with stack := r } : State).latch .invalidInstructionArgument))

/-- R110, R113: `applyOperator` on every pair of kinds: the sum and the difference modulo 2^64 in the
shared integer kind, and no value for a `Bool` or for two different kinds; subtraction is addition of the
complement. -/
def Obligations.ApplyOperatorOnEveryPairOfKinds : Prop :=
  (∀ a b : Word, ∃ c d : Word, c.toNat = (a.toNat + b.toNat) % 2 ^ 64 ∧
    (d.toNat : Int) = ((a.toNat : Int) - b.toNat) % 2 ^ 64 ∧
    applyOperator addWord (.u64 a) (.u64 b) = some (.u64 c) ∧
    applyOperator addWord (.pointer a) (.pointer b) = some (.pointer c) ∧
    applyOperator subWord (.u64 a) (.u64 b) = some (.u64 d) ∧
    applyOperator subWord (.pointer a) (.pointer b) = some (.pointer d) ∧
    applyOperator subWord (.u64 a) (.u64 b) =
      applyOperator addWord (.u64 a) (.u64 (BitVec.ofNat 64 ((2 ^ 64 - b.toNat) % 2 ^ 64)))) ∧
  (∀ lhs rhs : Value, lhs.kind = .bool ∨ rhs.kind = .bool ∨ lhs.kind ≠ rhs.kind →
    applyOperator addWord lhs rhs = none ∧ applyOperator subWord lhs rhs = none)

/-! ## When each error is raised -/

/-- R84, R142: the two causes of `InvalidInstruction`. The decoder, on an opcode byte of 8 or more after
any program, and then nothing is loaded; a tick, exactly when the fetched record is not valid, and then the error is
latched, `pc` has advanced, and nothing else changes. That bytes with bit 7 set are such opcode bytes is
decision D27, that the engine keeps its state on a failed load decision D21, the latch decision D9 (log
entry 14). -/
def Obligations.InvalidInstructionCauses : Prop :=
  (∀ (p : List Instr) (bytes : List Byte) (b : Byte) (rest : List Byte) (e : StreamEnd) (s : State),
    encodeProgram p = .ok bytes → 8 ≤ b.toNat → s.config.progCapacity = none →
      command (.load ⟨bytes ++ b :: rest, 0, e⟩) s = .next (s, .loadFailed .invalidInstruction) ∧
      answerError (.loadFailed .invalidInstruction) = some ⟨.invalidInstruction, 0⟩) ∧
  (∀ i : Instr, valid i = false ↔
    ((i.op = .nop ∨ i.op = .add ∨ i.op = .sub ∨ i.op = .jmpO ∨ i.op = .jmpIfO) ∧ i.arg ≠ none) ∨
    ((i.op = .push ∨ i.op = .jmp ∨ i.op = .jmpIf) ∧ i.arg = none) ∨
    ((i.op = .jmp ∨ i.op = .jmpIf) ∧
      (i.arg.map Value.kind = some .pointer ∨ i.arg.map Value.kind = some .bool))) ∧
  (∀ (s : State) (i : Instr), s.ProgFits → s.fault = none → s.fetch = some i → valid i = false →
    tick s = .next ({ s with pc := s.pc + 1, fault := some ⟨.invalidInstruction, 0⟩ },
      .error ⟨.invalidInstruction, 0⟩)) ∧
  (∀ (s t : State) (i : Instr), s.fault = none → valid i = true → exec i s = .next t →
    t.fault ≠ some ⟨.invalidInstruction, 0⟩)

/-- R144, R115: `InvalidOperator` comes from `Add` and `Sub` alone, exactly when a `Bool` or two different
kinds were popped; both operands are gone, nothing is pushed, nothing else changes. That the operands stay
popped is decision D7, the latch decision D9 (log entry 14). -/
def Obligations.InvalidOperatorExactlyOnMismatch : Prop :=
  (∀ (s : State) (i : Instr) (r : List Value) (lhs rhs : Value), i = .add none ∨ i = .sub none →
    s.stack = r ++ [lhs, rhs] → (lhs.kind = .bool ∨ rhs.kind = .bool ∨ lhs.kind ≠ rhs.kind) →
      exec i s = .next { s with stack := r, fault := some ⟨.invalidOperator, 0⟩ }) ∧
  (∀ (s t : State) (i : Instr), s.fault = none → exec i s = .next t →
    t.fault = some ⟨.invalidOperator, 0⟩ →
      (i = .add none ∨ i = .sub none) ∧
      ∃ (r : List Value) (lhs rhs : Value), s.stack = r ++ [lhs, rhs] ∧
        (lhs.kind = .bool ∨ rhs.kind = .bool ∨ lhs.kind ≠ rhs.kind))

/-- R143: `InvalidInstructionArgument` comes from `JmpIf`, `JmpO` and `JmpIfO` alone, exactly when a popped
operand has the wrong kind; the operands are gone, no jump is made, nothing else changes. That the operands
stay popped is decision D7, that both pops of `JmpIfO` come before its kind checks decision D8, that its
address is checked whatever the condition decision D23, the latch decision D9 (log entry 14). -/
def Obligations.InvalidArgumentExactlyOnWrongKind : Prop :=
  (∀ (s : State) (n : Word) (r : List Value) (c : Value), s.stack = r ++ [c] → c.kind ≠ .bool →
    exec (.jmpIf (some (.u64 n))) s =
      .next { s with stack := r, fault := some ⟨.invalidInstructionArgument, 0⟩ }) ∧
  (∀ (s : State) (r : List Value) (v : Value), s.stack = r ++ [v] → v.kind ≠ .u64 →
    exec (.jmpO none) s =
      .next { s with stack := r, fault := some ⟨.invalidInstructionArgument, 0⟩ }) ∧
  (∀ (s : State) (r : List Value) (c a : Value), s.stack = r ++ [c, a] →
    (a.kind ≠ .u64 ∨ c.kind ≠ .bool) →
    exec (.jmpIfO none) s =
      .next { s with stack := r, fault := some ⟨.invalidInstructionArgument, 0⟩ }) ∧
  (∀ (s t : State) (i : Instr), s.fault = none → exec i s = .next t →
    t.fault = some ⟨.invalidInstructionArgument, 0⟩ → ∃ r : List Value,
      (∃ (n : Word) (c : Value), i = .jmpIf (some (.u64 n)) ∧ s.stack = r ++ [c] ∧ c.kind ≠ .bool) ∨
      (∃ v : Value, i = .jmpO none ∧ s.stack = r ++ [v] ∧ v.kind ≠ .u64) ∨
      (∃ c a : Value, i = .jmpIfO none ∧ s.stack = r ++ [c, a] ∧ (a.kind ≠ .u64 ∨ c.kind ≠ .bool)))

/-- R147: `StackUnderflow` is raised exactly when a valid record pops more values than there are (two for
`Add`, `Sub`, `JmpIfO`, one for `JmpIf`, `JmpO`); the value popped before stays popped, nothing else
changes. That it stays popped is decision D7, that the pops come before every kind check decision D8, the
latch decision D9 (log entry 14). -/
def Obligations.UnderflowExactlyWhenTooFewValues : Prop :=
  (∀ (s : State) (i : Instr), valid i = true → s.stack.length < popsOf i →
    exec i s = .next { s with stack := [], fault := some ⟨.stackUnderflow, 0⟩ }) ∧
  (∀ (s t : State) (i : Instr), s.fault = none → exec i s = .next t →
    t.fault = some ⟨.stackUnderflow, 0⟩ → valid i = true ∧ s.stack.length < popsOf i) ∧
  (∀ i : Instr, popsOf i = match i.op with
    | .nop => 0 | .push => 0 | .jmp => 0 | .jmpIf => 1 | .jmpO => 1 | .add => 2 | .sub => 2
    | .jmpIfO => 2)

/-- R88, R150: in a stack within its capacity, `StackOverflow` comes from `Push` alone, exactly when a
finite capacity is reached; nothing but the latch changes (the error is the spec's own, decision D4; the
latch is decision D9). -/
def Obligations.OverflowExactlyWhenFull : Prop :=
  (∀ (s : State) (v : Value), s.config.stackCapacity = some s.stack.length →
    exec (.push (some v)) s = .next { s with fault := some ⟨.stackOverflow, 0⟩ }) ∧
  (∀ (s t : State) (i : Instr), s.fault = none → s.StackFits → exec i s = .next t →
    t.fault = some ⟨.stackOverflow, 0⟩ →
      (∃ v : Value, i = .push (some v)) ∧ s.config.stackCapacity = some s.stack.length)

/-- R91, R152: an instruction completes without an error exactly when its record is valid, its operands
are on the stack with the kinds it needs, and a `Push` finds room (that the latch shows it is decision
D9; the order of pops and checks decision D8; both kind checks of `JmpIfO` decision D23). -/
def Obligations.CompletesExactlyWhenReady : Prop :=
  ∀ (i : Instr) (s : State), s.fault = none → s.StackFits →
    ((∃ t, exec i s = .next t ∧ t.fault = none) ↔ ready i s = true)

/-- R89, R154: a failing tick leaves `pc` at the old `pc` plus 1 and pushes nothing: the stack it leaves is
a beginning of the old one, at most two values shorter (that popped values stay popped is the spec's
decision D7, the latch decision D9). -/
def Obligations.FailingTickAdvancesAndOnlyPops : Prop :=
  ∀ (s t : State) (e : Error), s.fault = none → step s = .next t → t.fault = some e →
    t.pc = s.pc + 1 ∧ t.stack <+: s.stack ∧ s.stack.length ≤ t.stack.length + 2 ∧
    t.prog = s.prog ∧ t.heap = s.heap ∧ t.config = s.config

/-- R127: an instruction that fails never changes `pc` (derived by the spec from R121 to R124; the latch
that shows the failure is decision D9). -/
def Obligations.FailingInstructionNeverJumps : Prop :=
  ∀ (i : Instr) (s t : State), s.fault = none → exec i s = .next t → t.fault ≠ none → t.pc = s.pc

/-! ## Frames -/

/-- R15, R21, R42: no instruction writes the program store or the heap, and none changes the
parameters. -/
def Obligations.NoInstructionWritesProgramOrHeap : Prop :=
  ∀ (i : Instr) (s t : State), exec i s = .next t →
    t.prog = s.prog ∧ t.heap = s.heap ∧ t.config = s.config

/-- R18, R120: `Nop`, `Push`, `Add`, `Sub` leave `pc` as step 2 left it, on every outcome, and so does a
jump that is not taken; what changes it is a taken jump: `Jmp`, or `JmpIf` with `Bool(true)` on top, to its
argument, or `JmpO`, or `JmpIfO` with `Bool(true)` under the address, to the `U64` on top. -/
def Obligations.OnlyJumpsWritePc : Prop :=
  ∀ (i : Instr) (s t : State), exec i s = .next t → t.pc ≠ s.pc → IsTakenJump i s.stack t.stack t.pc

/-- R19: a valid instruction reaches no further down than the values it pops: what lies below stays, and
only `Push`, `Add` and `Sub` put a value, one, on it; a record that fails validation leaves the whole
stack. That the operands of a valid record that fails stay popped is decision D7, the spec's own reading
(R89; log entry 14). -/
def Obligations.OnlyTheTopOfTheStackChanges : Prop :=
  ∀ (i : Instr) (s t : State), exec i s = .next t →
    (valid i = false → t.stack = s.stack) ∧
    (valid i = true →
      t.stack = s.stack.take (s.stack.length - popsOf i) ∨
      ((i.op = .push ∨ i.op = .add ∨ i.op = .sub) ∧
        ∃ v, t.stack = s.stack.take (s.stack.length - popsOf i) ++ [v]))

/-- R23, R89: an instruction leaves `fault` as it was or latches one fatal error with the information
word 0 (the latch is the spec's decision D9, the word decision D13). -/
def Obligations.OnlyFatalErrorsAreLatched : Prop :=
  ∀ (i : Instr) (s t : State), exec i s = .next t →
    t.fault = s.fault ∨ ∃ k : ErrorKind, k.fatal = true ∧ t.fault = some ⟨k, 0⟩

/-- R18: `pc` changes in two ways only: a running engine's step adds 1, without wrapping, or the fetched
record is a jump that is taken, with no fault, to its own target, which for `Jmp` and `JmpIf` is the
argument and for `JmpO` and `JmpIfO` the top of the stack (that the increment never wraps is derived by
the spec; the latch is decision D9). -/
def Obligations.PcChangesInTwoWaysOnly : Prop :=
  ∀ (s t : State), s.ProgFits → s.engine = .running → step s = .next t →
    (t.pc = s.pc + 1 ∧ t.pc.toNat = s.pc.toNat + 1 ∧ t.pc.toNat ≤ s.prog.length) ∨
    (t.fault = none ∧ ∃ i, s.fetch = some i ∧ IsTakenJump i s.stack t.stack t.pc)

/-- R15, R42: "`len(Prog)` is constant during a run": however many steps are made, the program store, the
heap and the parameters are those at the start (no append is the spec's decision D16). -/
def Obligations.ProgramIsConstantDuringARun : Prop :=
  ∀ (n : Nat) (s t : State), core.run n s = .next t →
    t.prog = s.prog ∧ t.heap = s.heap ∧ t.config = s.config

/-! ## Independence -/

/-- R26, R31, R93: a tick reads of the program store only the record it fetches, and nothing of the heap:
another store with the same record there, and another heap, give the same result and the same changes. -/
def Obligations.TickReadsOnlyTheFetchedRecord : Prop :=
  ∀ (s t : State) (r : TickResult) (p : List Instr) (h : List Host.Cell),
    p[s.pc.toNat]? = s.fetch → tick s = .next (t, r) →
      tick { s with prog := p, heap := h } = .next ({ t with prog := p, heap := h }, r)

/-- R19: with an unbounded stack, values put under the stack change nothing of what an instruction does
that does not run out of values (the latch that shows it is decision D9). -/
def Obligations.StackBelowIsNeverRead : Prop :=
  ∀ (i : Instr) (s t : State) (below : List Value), s.config.stackCapacity = none →
    exec i s = .next t → (∀ e : Error, t.fault = some e → e.kind ≠ .stackUnderflow) →
      exec i { s with stack := below ++ s.stack } = .next { t with stack := below ++ t.stack }

/-! ## Reset, loading, invariants -/

/-- R25, R171: after reset `pc` is 0, the stack and the heap are empty, no fault is latched; loaded with
nothing the engine is Halted and its first tick answers `NoMoreInstructions(0)` (the empty Program of
`State.reset` is log entry 2; the values of the stack and of `fault` are decision D15). -/
def Obligations.StateAfterReset : Prop :=
  State.reset.pc = 0 ∧ State.reset.stack = [] ∧ State.reset.heap = [] ∧ State.reset.fault = none ∧
  State.reset.prog = [] ∧ State.reset.config = ⟨none, none⟩ ∧ State.reset.engine = .halted ∧
  tick State.reset = .next (State.reset, .error ⟨.noMoreInstructions, 0⟩)

/-- R170, R25: `Reset(P)`, in any state, puts every element at its reset value, keeps the parameters, and
leaves the engine Running exactly when `P` is not empty (decisions D15, D18, D25; which Programs the
host may hand over: log entry 8). -/
def Obligations.ResetPutsEveryElementAtItsValue : Prop :=
  ∀ (s : State) (p : List Instr), admits s.config p = true →
    ∃ t : State, command (.reset p) s = .next (t, .done) ∧
      t = { config := s.config, prog := p, pc := 0, stack := [], heap := [], fault := none } ∧
      (t.engine = .running ↔ p ≠ [])

/-- R173, R63: a load decodes first and resets only on success; on failure the host gets the error and the
engine keeps its state (decision D21; which Programs the host may hand over: log entry 8). -/
def Obligations.LoadDecodesThenResets : Prop :=
  (∀ (s : State) (stream : Stream) (p : List Instr),
    decodeProgram s.config.progCapacity stream = .ok p → admits s.config p = true →
      command (.load stream) s = .next (State.resetTo s.config p, .done)) ∧
  (∀ (s : State) (stream : Stream) (e : DecodeError),
    decodeProgram s.config.progCapacity stream = .error e →
      command (.load stream) s = .next (s, .loadFailed e))

/-- R68: the empty stream loads the empty Program, and the next tick answers `NoMoreInstructions(0)`
(derived by the spec; the reset values of the stack and of `fault` are decision D15). -/
def Obligations.EmptyStreamLoadsTheEmptyProgram : Prop :=
  ∀ s : State, command (.load (Stream.ofBytes [])) s = .next (State.resetTo s.config [], .done) ∧
    tick (State.resetTo s.config []) =
      .next (State.resetTo s.config [], .error ⟨.noMoreInstructions, 0⟩)

/-- R149: the code of each of the eleven kinds, and whether it is fatal to a run, as the table has them; no
two kinds share a code, and code 0 is no error (the numbers are decision D12). -/
def Obligations.ErrorCodesNameTheKinds : Prop :=
  (ErrorKind.code .invalidObject = 1 ∧ ErrorKind.fatal .invalidObject = false) ∧
  (ErrorKind.code .invalidInstruction = 2 ∧ ErrorKind.fatal .invalidInstruction = true) ∧
  (ErrorKind.code .invalidInstructionArgument = 3 ∧
    ErrorKind.fatal .invalidInstructionArgument = true) ∧
  (ErrorKind.code .invalidOperator = 4 ∧ ErrorKind.fatal .invalidOperator = true) ∧
  (ErrorKind.code .fileNotFound = 5 ∧ ErrorKind.fatal .fileNotFound = false) ∧
  (ErrorKind.code .fileError = 6 ∧ ErrorKind.fatal .fileError = false) ∧
  (ErrorKind.code .unexpectedEOF = 7 ∧ ErrorKind.fatal .unexpectedEOF = false) ∧
  (ErrorKind.code .noMoreInstructions = 8 ∧ ErrorKind.fatal .noMoreInstructions = false) ∧
  (ErrorKind.code .stackUnderflow = 9 ∧ ErrorKind.fatal .stackUnderflow = true) ∧
  (ErrorKind.code .stackOverflow = 10 ∧ ErrorKind.fatal .stackOverflow = true) ∧
  (ErrorKind.code .programOverflow = 11 ∧ ErrorKind.fatal .programOverflow = false) ∧
  (∀ k k' : ErrorKind, k ≠ k' → k.code ≠ k'.code) ∧
  (∀ k : ErrorKind, 1 ≤ k.code ∧ k.code ≤ 11) ∧
  answerCode .done = 0 ∧ answerCode (.ticked .ok) = 0

/-- R25: the invariant holds after reset, with any Program within the bounds of R5 (decision D5;
the reset values of the stack and of `fault` are decision D15). -/
def Obligations.InvariantHoldsAfterReset : Prop :=
  State.reset.Inv ∧
  ∀ (c : Config) (p : List Instr), c.wellFormed = true → admits c p = true → (State.resetTo c p).Inv

/-- R5, R20, R21, R23, R148: every step keeps the invariant: program store and stack within their
capacities, the heap empty, the latch holding only a fatal error with the information word 0 (the
capacities are decisions D4 and D5, the latch decision D9, the word decision D13). -/
def Obligations.EveryStepKeepsTheInvariant : Prop :=
  ∀ s t : State, s.Inv → step s = .next t → t.Inv

/-- R175: every command of the host keeps the invariant (a failed load keeps the state: decision D21; a
Program the host may not hand over is refused: log entry 8). -/
def Obligations.EveryCommandKeepsTheInvariant : Prop :=
  ∀ (c : Command) (s t : State) (a : Answer), s.Inv → command c s = .next (t, a) → t.Inv

/-! ## Validation and the advance -/

/-- R85: a record is valid exactly when the table says so: no argument on `Nop`, `Add`, `Sub`, `JmpO` and
`JmpIfO`; an argument of any kind on `Push`; a `U64` argument, of any value, on `Jmp` and `JmpIf`. -/
def Obligations.ValidExactlyAsTheTableSays : Prop :=
  ∀ i : Instr, valid i = true ↔
    match i.op with
    | .nop => i.arg = none
    | .add => i.arg = none
    | .sub => i.arg = none
    | .jmpO => i.arg = none
    | .jmpIfO => i.arg = none
    | .push => ∃ v : Value, i.arg = some v
    | .jmp => ∃ n : Word, i.arg = some (.u64 n)
    | .jmpIf => ∃ n : Word, i.arg = some (.u64 n)

/-- R83: a tick that fetched a record advances `pc` by 1, without overflow, before anything else; a taken
jump overwrites that value with its target; every other record, and every tick that answers an error,
leaves it. -/
def Obligations.PcIsAdvancedBeforeTheRecordActs : Prop :=
  ∀ (s t : State) (i : Instr) (r : TickResult), s.ProgFits → s.fault = none → s.fetch = some i →
    tick s = .next (t, r) →
      (s.pc + 1).toNat = s.pc.toNat + 1 ∧
      (∀ (rest : List Value) (target : Word), IsTakenJump i s.stack rest target → t.pc = target) ∧
      ((∀ (rest : List Value) (target : Word), ¬ IsTakenJump i s.stack rest target) →
        t.pc = s.pc + 1) ∧
      (∀ e : Error, r = .error e → t.pc = s.pc + 1)
end

