-- ==== Sys2Proof/Laws/Decode.lean ====
section
/-! SUPPORT. The codec's small parts: bytes, payloads and reads. -/

namespace Sys2Proof

@[simp] theorem opcodeOfByte_byte (op : Opcode) : opcodeOfByte op.byte = some op := by
  cases op <;> rfl

@[simp] theorem kindOfByte_byte (k : Kind) : kindOfByte k.byte = some k := by
  cases k <;> rfl

theorem opcodeOfByte_eq_some {b : Byte} {op : Opcode} (h : opcodeOfByte b = some op) :
    b = op.byte := by
  revert b
  cases op <;> decide

theorem kindOfByte_eq_some {b : Byte} {k : Kind} (h : kindOfByte b = some k) : b = k.byte := by
  revert b
  cases k <;> decide

theorem opcodeOfByte_eq_none {b : Byte} (h : 8 ≤ b.toNat) : opcodeOfByte b = none := by
  revert b
  decide

theorem kindOfByte_eq_none {b : Byte} (h : 3 ≤ b.toNat) : kindOfByte b = none := by
  revert b
  decide

/-- The eight payload bytes assemble to the word they were taken from (30_encoding R50, R64). -/
theorem le64_extract (n : Word) :
    le64 (n.extractLsb' 0 8) (n.extractLsb' 8 8) (n.extractLsb' 16 8) (n.extractLsb' 24 8)
      (n.extractLsb' 32 8) (n.extractLsb' 40 8) (n.extractLsb' 48 8) (n.extractLsb' 56 8) = n := by
  apply BitVec.eq_of_getLsbD_eq
  intro i hi
  simp only [le64, BitVec.getLsbD_append, BitVec.getLsbD_extractLsb']
  grind

theorem readOne_cons (b : Byte) (rest : List Byte) (off : Nat) (e : StreamEnd) :
    (Stream.mk (b :: rest) off e).readOne = .got b (Stream.mk rest (off + 1) e) := rfl

theorem readEight_bytesOfWord (n : Word) (rest : List Byte) (off : Nat) (e : StreamEnd) :
    (Stream.mk (bytesOfWord n ++ rest) off e).readEight = .got n (Stream.mk rest (off + 8) e) := by
  simp [bytesOfWord, Stream.readEight, le64_extract]

end Sys2Proof
end

