-- ==== Sys2Proof/Laws/State.lean ====
section
/-! SUPPORT. One lemma per field per update of the state. -/

namespace Sys2Proof.Machine

@[simp] theorem State.advancePc_config (s : State) : s.advancePc.config = s.config := rfl
@[simp] theorem State.advancePc_prog (s : State) : s.advancePc.prog = s.prog := rfl
@[simp] theorem State.advancePc_pc (s : State) : s.advancePc.pc = s.pc + 1 := rfl
@[simp] theorem State.advancePc_stack (s : State) : s.advancePc.stack = s.stack := rfl
@[simp] theorem State.advancePc_heap (s : State) : s.advancePc.heap = s.heap := rfl
@[simp] theorem State.advancePc_fault (s : State) : s.advancePc.fault = s.fault := rfl

@[simp] theorem State.jumpTo_config (t : Word) (s : State) : (s.jumpTo t).config = s.config := rfl
@[simp] theorem State.jumpTo_prog (t : Word) (s : State) : (s.jumpTo t).prog = s.prog := rfl
@[simp] theorem State.jumpTo_pc (t : Word) (s : State) : (s.jumpTo t).pc = t := rfl
@[simp] theorem State.jumpTo_stack (t : Word) (s : State) : (s.jumpTo t).stack = s.stack := rfl
@[simp] theorem State.jumpTo_heap (t : Word) (s : State) : (s.jumpTo t).heap = s.heap := rfl
@[simp] theorem State.jumpTo_fault (t : Word) (s : State) : (s.jumpTo t).fault = s.fault := rfl

@[simp] theorem State.latch_config (k : ErrorKind) (s : State) : (s.latch k).config = s.config := rfl
@[simp] theorem State.latch_prog (k : ErrorKind) (s : State) : (s.latch k).prog = s.prog := rfl
@[simp] theorem State.latch_pc (k : ErrorKind) (s : State) : (s.latch k).pc = s.pc := rfl
@[simp] theorem State.latch_stack (k : ErrorKind) (s : State) : (s.latch k).stack = s.stack := rfl
@[simp] theorem State.latch_heap (k : ErrorKind) (s : State) : (s.latch k).heap = s.heap := rfl
@[simp] theorem State.latch_fault (k : ErrorKind) (s : State) :
    (s.latch k).fault = some { kind := k, info := 0 } := rfl

@[simp] theorem jumpIf_true (t : Word) (s : State) : jumpIf true t s = s.jumpTo t := rfl
@[simp] theorem jumpIf_false (t : Word) (s : State) : jumpIf false t s = s := rfl

@[simp] theorem State.resetTo_config (c : Config) (p : List Instr) : (State.resetTo c p).config = c := rfl
@[simp] theorem State.resetTo_prog (c : Config) (p : List Instr) : (State.resetTo c p).prog = p := rfl
@[simp] theorem State.resetTo_pc (c : Config) (p : List Instr) : (State.resetTo c p).pc = 0 := rfl
@[simp] theorem State.resetTo_stack (c : Config) (p : List Instr) : (State.resetTo c p).stack = [] := rfl
@[simp] theorem State.resetTo_heap (c : Config) (p : List Instr) : (State.resetTo c p).heap = [] := rfl
@[simp] theorem State.resetTo_fault (c : Config) (p : List Instr) : (State.resetTo c p).fault = none := rfl

end Sys2Proof.Machine
end

