-- ==== Sys2Proof/Laws/Ops.lean ====
section
/-! SUPPORT. What each shared operation does, once: its equations, and what follows from its answering a
next state. -/

namespace Sys2Proof

@[simp] theorem fits_none (n : Nat) : fits none n = true := rfl

theorem fits_some (bound n : Nat) : fits (some bound) n = true ↔ n ≤ bound := by simp [fits]

theorem fits_of_le {c : Option Nat} {m n : Nat} (h : fits c n = true) (hle : m ≤ n) :
    fits c m = true := by
  cases c with
  | none => rfl
  | some bound => exact (fits_some _ _).2 (Nat.le_trans hle ((fits_some _ _).1 h))

namespace Machine

theorem State.withPop_empty {s : State} (k : Value → State → Result) (h : s.stack = []) :
    s.withPop k = .next (s.latch .stackUnderflow) := by
  simp [State.withPop, State.raise, h]

theorem State.withPop_top {s : State} {r : List Value} {v : Value} (k : Value → State → Result)
    (h : s.stack = r ++ [v]) : s.withPop k = k v { s with stack := r } := by
  simp [State.withPop, h]

/-- Two pops in a row (40_tick_cycle R91). -/
theorem State.withPop_two {s : State} {r : List Value} {under top : Value}
    (k : Value → Value → State → Result) (h : s.stack = r ++ [under, top]) :
    (s.withPop fun v s1 => s1.withPop (k v)) = k top under { s with stack := r } := by
  rw [State.withPop_top (r := r ++ [under]) (v := top) _ (by simp [h]),
    State.withPop_top (r := r) (v := under) _ rfl]

/-- What `Pop()` and what follows it can do. -/
theorem State.withPop_cases {s t : State} {k : Value → State → Result}
    (h : s.withPop k = .next t) :
    (s.stack = [] ∧ t = s.latch .stackUnderflow) ∨
      ∃ r v, s.stack = r ++ [v] ∧ k v { s with stack := r } = .next t := by
  rcases List.eq_nil_or_concat s.stack with hs | ⟨r, v, hs⟩
  · rw [State.withPop_empty k hs] at h
    injection h with h
    exact .inl ⟨hs, h.symm⟩
  · rw [List.concat_eq_append] at hs
    rw [State.withPop_top k hs] at h
    exact .inr ⟨r, v, hs, h⟩

theorem State.pushValue_room {s : State} (v : Value) (h : s.hasRoom = true) :
    s.pushValue v = .next { s with stack := s.stack ++ [v] } := by
  simp [State.pushValue, h]

theorem State.pushValue_full {s : State} (v : Value) (h : s.hasRoom = false) :
    s.pushValue v = .next (s.latch .stackOverflow) := by
  simp [State.pushValue, State.raise, h]

/-- What `Push(v)` as the last action can do. -/
theorem State.pushValue_cases {s t : State} {v : Value} (h : s.pushValue v = .next t) :
    (s.hasRoom = true ∧ t = { s with stack := s.stack ++ [v] }) ∨
      (s.hasRoom = false ∧ t = s.latch .stackOverflow) := by
  cases hr : s.hasRoom with
  | true => rw [State.pushValue_room v hr] at h; injection h with h; exact .inl ⟨rfl, h.symm⟩
  | false => rw [State.pushValue_full v hr] at h; injection h with h; exact .inr ⟨rfl, h.symm⟩

/-- Two values popped leave room for one (42_arithmetic R111). -/
theorem State.hasRoom_of_popped {s : State} {r : List Value} {a b : Value} (hf : s.StackFits)
    (h : s.stack = r ++ [a, b]) : ({ s with stack := r } : State).hasRoom = true := by
  refine fits_of_le hf ?_
  simp [h]

theorem State.fetch_in_range {s : State} {i : Instr} (h : s.fetch = some i) :
    s.pc.toNat < s.prog.length :=
  (List.getElem?_eq_some_iff.1 h).1

theorem State.fetch_eq_none {s : State} : s.fetch = none ↔ s.prog.length ≤ s.pc.toNat :=
  List.getElem?_eq_none_iff

theorem State.ProgFits.length_lt {s : State} (h : s.ProgFits) : s.prog.length < 2 ^ 64 := by
  have := (Bool.and_eq_true_iff.1 h).1
  simpa using this

/-- Step 2 in a state within R5's bound: the advance does not wrap (10_state R18). -/
theorem advanceAndExec_eq {s : State} {i : Instr} (hp : s.ProgFits) (hf : s.fetch = some i) :
    advanceAndExec i s = exec i s.advancePc := by
  have := State.fetch_in_range hf
  have := hp.length_lt
  unfold advanceAndExec
  rw [if_pos (by omega)]

theorem withoutArg_none (s : State) (k : Result) : withoutArg none s k = k := rfl

theorem withoutArg_some (v : Value) (s : State) (k : Result) :
    withoutArg (some v) s k = .next (s.latch .invalidInstruction) := rfl

end Machine

end Sys2Proof
end

