-- ==== Sys2Proof/Laws/Exec.lean ====
section
/-! SUPPORT. What an instruction can do, once (40_tick_cycle R91, steps 3 and 4), and that it always
answers a next state. Facts about all of `exec` follow by cases on `Effect`. -/

namespace Sys2Proof.Machine

/-! Each instruction on a record that passes step 3, as the operations of step 4. -/

theorem exec_push_some (v : Value) (s : State) : exec (.push (some v)) s = s.pushValue v := rfl

theorem exec_add_none (s : State) : exec (.add none) s = binaryOperator addWord s := rfl

theorem exec_sub_none (s : State) : exec (.sub none) s = binaryOperator subWord s := rfl

theorem exec_jmpIf_u64 (n : Word) (s : State) :
    exec (.jmpIf (some (.u64 n))) s = s.withPop fun c s1 =>
      withCondition c s1 fun taken => .next (jumpIf taken n s1) := rfl

theorem exec_jmpO_none (s : State) :
    exec (.jmpO none) s = s.withPop fun v s1 => withTarget v s1 fun t => .next (s1.jumpTo t) := rfl

theorem exec_jmpIfO_none (s : State) :
    exec (.jmpIfO none) s = s.withPop fun a s1 => s1.withPop fun c s2 =>
      withTarget a s2 fun t => withCondition c s2 fun taken => .next (jumpIf taken t s2) := rfl

/-- Everything steps 3 and 4 can do to the state `s` that step 2 left. -/
inductive Effect (s : State) : Instr → State → Prop
  | invalid {i : Instr} (h : valid i = false) : Effect s i (s.latch .invalidInstruction)
  | nop : Effect s (.nop none) s
  | push {v : Value} (h : s.hasRoom = true) :
      Effect s (.push (some v)) { s with stack := s.stack ++ [v] }
  | pushFull {v : Value} (h : s.hasRoom = false) :
      Effect s (.push (some v)) (s.latch .stackOverflow)
  | underflow {i : Instr} (hv : valid i = true) (h : s.stack.length < popsOf i) :
      Effect s i (({ s with stack := [] } : State).latch .stackUnderflow)
  | badOperator {i : Instr} {r : List Value} {lhs rhs : Value}
      (hi : i = .add none ∨ i = .sub none) (hs : s.stack = r ++ [lhs, rhs])
      (h : ∀ op, applyOperator op lhs rhs = none) :
      Effect s i (({ s with stack := r } : State).latch .invalidOperator)
  | operator {i : Instr} {op : Word → Word → Word} {r : List Value} {lhs rhs v : Value}
      (hi : (i = .add none ∧ op = addWord) ∨ (i = .sub none ∧ op = subWord))
      (hs : s.stack = r ++ [lhs, rhs]) (h : applyOperator op lhs rhs = some v)
      (hr : ({ s with stack := r } : State).hasRoom = true) :
      Effect s i { s with stack := r ++ [v] }
  | operatorFull {i : Instr} {op : Word → Word → Word} {r : List Value} {lhs rhs v : Value}
      (hi : (i = .add none ∧ op = addWord) ∨ (i = .sub none ∧ op = subWord))
      (hs : s.stack = r ++ [lhs, rhs]) (h : applyOperator op lhs rhs = some v)
      (hr : ({ s with stack := r } : State).hasRoom = false) :
      Effect s i (({ s with stack := r } : State).latch .stackOverflow)
  | jmp {n : Word} : Effect s (.jmp (some (.u64 n))) (s.jumpTo n)
  | jmpIf {n : Word} {r : List Value} {taken : Bool} (hs : s.stack = r ++ [.bool taken]) :
      Effect s (.jmpIf (some (.u64 n))) (jumpIf taken n { s with stack := r })
  | jmpIfBad {n : Word} {r : List Value} {c : Value} (hs : s.stack = r ++ [c])
      (h : c.kind ≠ .bool) :
      Effect s (.jmpIf (some (.u64 n)))
        (({ s with stack := r } : State).latch .invalidInstructionArgument)
  | jmpO {n : Word} {r : List Value} (hs : s.stack = r ++ [.u64 n]) :
      Effect s (.jmpO none) (({ s with stack := r } : State).jumpTo n)
  | jmpOBad {r : List Value} {v : Value} (hs : s.stack = r ++ [v]) (h : v.kind ≠ .u64) :
      Effect s (.jmpO none) (({ s with stack := r } : State).latch .invalidInstructionArgument)
  | jmpIfO {n : Word} {r : List Value} {taken : Bool} (hs : s.stack = r ++ [.bool taken, .u64 n]) :
      Effect s (.jmpIfO none) (jumpIf taken n { s with stack := r })
  | jmpIfOBad {r : List Value} {c a : Value} (hs : s.stack = r ++ [c, a])
      (h : a.kind ≠ .u64 ∨ c.kind ≠ .bool) :
      Effect s (.jmpIfO none) (({ s with stack := r } : State).latch .invalidInstructionArgument)

/-- Whether `applyOperator` has a result does not depend on the operation (42_arithmetic R110). -/
theorem applyOperator_none {op : Word → Word → Word} {lhs rhs : Value}
    (h : applyOperator op lhs rhs = none) (op' : Word → Word → Word) :
    applyOperator op' lhs rhs = none := by
  cases lhs <;> cases rhs <;> simp_all [applyOperator]

/-- The stack when `Add`, `Sub` or `JmpIfO` has popped its two operands. -/
theorem stack_of_two_pops {s : State} {r1 r2 : List Value} {v1 v2 : Value}
    (h1 : s.stack = r1 ++ [v1]) (h2 : r1 = r2 ++ [v2]) : s.stack = r2 ++ [v2, v1] := by
  simp [h1, h2]

theorem effect_underflow_of_empty {s : State} {i : Instr} (hv : valid i = true) (hs : s.stack = [])
    (hp : 0 < popsOf i) : Effect s i (s.latch .stackUnderflow) := by
  have h := Effect.underflow (s := s) hv (by simpa [hs] using hp)
  have e : ({ s with stack := [] } : State) = s := by rw [← hs]
  rwa [e] at h

theorem effect_of_binaryOperator {s t : State} {i : Instr} {op : Word → Word → Word}
    (hi : (i = .add none ∧ op = addWord) ∨ (i = .sub none ∧ op = subWord))
    (h : binaryOperator op s = .next t) : Effect s i t := by
  have hv : valid i = true := by rcases hi with ⟨rfl, -⟩ | ⟨rfl, -⟩ <;> rfl
  have hp : popsOf i = 2 := by rcases hi with ⟨rfl, -⟩ | ⟨rfl, -⟩ <;> rfl
  rcases State.withPop_cases h with ⟨hs, rfl⟩ | ⟨r1, rhs, hs, h⟩
  · exact effect_underflow_of_empty hv hs (by omega)
  rcases State.withPop_cases h with ⟨hs1, rfl⟩ | ⟨r, lhs, hs1, h⟩
  · cases (show r1 = [] from hs1)
    exact .underflow hv (by simp [hs, hp])
  have hs2 := stack_of_two_pops hs hs1
  cases ho : applyOperator op lhs rhs with
  | none =>
    simp only [ho] at h
    injection h with h
    subst h
    exact .badOperator (hi.imp And.left And.left) hs2 (applyOperator_none ho)
  | some v =>
    simp only [ho] at h
    rcases State.pushValue_cases h with ⟨hr, rfl⟩ | ⟨hr, rfl⟩
    · exact .operator hi hs2 ho hr
    · exact .operatorFull hi hs2 ho hr

theorem effect_of_execJmpIf {s t : State} {arg : Option Value} (h : execJmpIf arg s = .next t) :
    Effect s (.jmpIf arg) t := by
  rcases arg with _ | (n | n | b)
  · cases h; exact .invalid rfl
  · simp only [execJmpIf, withTargetArg] at h
    rcases State.withPop_cases h with ⟨hs, rfl⟩ | ⟨r, c, hs, h⟩
    · exact effect_underflow_of_empty rfl hs (by simp [popsOf])
    · cases c with
      | bool taken => cases h; exact .jmpIf hs
      | u64 m => cases h; exact .jmpIfBad hs (by simp [Value.kind])
      | pointer m => cases h; exact .jmpIfBad hs (by simp [Value.kind])
  · cases h; exact .invalid rfl
  · cases h; exact .invalid rfl

theorem effect_of_execJmpO {s t : State} {arg : Option Value} (h : execJmpO arg s = .next t) :
    Effect s (.jmpO arg) t := by
  cases arg with
  | some v => cases h; exact .invalid rfl
  | none =>
    simp only [execJmpO, withoutArg_none] at h
    rcases State.withPop_cases h with ⟨hs, rfl⟩ | ⟨r, v, hs, h⟩
    · exact effect_underflow_of_empty rfl hs (by decide)
    · cases v with
      | u64 n => cases h; exact .jmpO hs
      | pointer n => cases h; exact .jmpOBad hs (by simp [Value.kind])
      | bool b => cases h; exact .jmpOBad hs (by simp [Value.kind])

theorem effect_of_execJmpIfO {s t : State} {arg : Option Value} (h : execJmpIfO arg s = .next t) :
    Effect s (.jmpIfO arg) t := by
  cases arg with
  | some v => cases h; exact .invalid rfl
  | none =>
    simp only [execJmpIfO, withoutArg_none] at h
    rcases State.withPop_cases h with ⟨hs, rfl⟩ | ⟨r1, a, hs, h⟩
    · exact effect_underflow_of_empty rfl hs (by decide)
    rcases State.withPop_cases h with ⟨hs1, rfl⟩ | ⟨r, c, hs1, h⟩
    · cases (show r1 = [] from hs1)
      exact .underflow rfl (by simp [hs, popsOf])
    have hs2 := stack_of_two_pops hs hs1
    cases a with
    | u64 n =>
      cases c with
      | bool taken => cases h; exact .jmpIfO hs2
      | u64 m => cases h; exact .jmpIfOBad hs2 (.inr (by simp [Value.kind]))
      | pointer m => cases h; exact .jmpIfOBad hs2 (.inr (by simp [Value.kind]))
    | pointer n => cases h; exact .jmpIfOBad hs2 (.inl (by simp [Value.kind]))
    | bool b => cases h; exact .jmpIfOBad hs2 (.inl (by simp [Value.kind]))

/-- What a taken jump does, whichever of the four it is (43_jumps R120). -/
theorem exec_of_isTakenJump {i : Instr} {s : State} {rest : List Value} {target : Word}
    (h : IsTakenJump i s.stack rest target) :
    exec i s = .next { s with stack := rest, pc := target } := by
  rcases h with ⟨rfl, rfl⟩ | ⟨rfl, h⟩ | ⟨rfl, h⟩ | ⟨rfl, h⟩
  · rfl
  · rw [exec_jmpIf_u64, State.withPop_top _ h]; rfl
  · rw [exec_jmpO_none, State.withPop_top _ h]; rfl
  · rw [exec_jmpIfO_none, State.withPop_two (k := fun a c s2 =>
      withTarget a s2 fun t => withCondition c s2 fun taken => .next (jumpIf taken t s2)) h]
    rfl

/-- What an instruction can do. -/
theorem exec_effect {i : Instr} {s t : State} (h : exec i s = .next t) : Effect s i t := by
  cases i with
  | nop arg => cases arg <;> cases h <;> first | exact .nop | exact .invalid rfl
  | push arg =>
    cases arg with
    | none => cases h; exact .invalid rfl
    | some v =>
      rcases State.pushValue_cases h with ⟨hr, rfl⟩ | ⟨hr, rfl⟩
      · exact .push hr
      · exact .pushFull hr
  | add arg =>
    cases arg with
    | none => exact effect_of_binaryOperator (.inl ⟨rfl, rfl⟩) h
    | some v => cases h; exact .invalid rfl
  | sub arg =>
    cases arg with
    | none => exact effect_of_binaryOperator (.inr ⟨rfl, rfl⟩) h
    | some v => cases h; exact .invalid rfl
  | jmp arg => rcases arg with _ | (n | n | b) <;> cases h <;> first | exact .jmp | exact .invalid rfl
  | jmpIf arg => exact effect_of_execJmpIf h
  | jmpO arg => exact effect_of_execJmpO h
  | jmpIfO arg => exact effect_of_execJmpIfO h

end Sys2Proof.Machine
end

