-- ==== Sys2Proof/Laws/Memory.lean ====
section
/-! SUPPORT. The heap's form. The machine has no operation on it (20_memory R32), so the form is that of
the empty list. -/

namespace Sys2Proof.Machine

/-- The heap's size is 0, so its only well-formed contents are none (10_state R21). -/
theorem Memory.wf_iff_nil (m : List Host.Cell) : Memory.wf m = true ↔ m = [] := by
  cases m <;> simp [Memory.wf, Memory.rising, Config.heapSize]

theorem Memory.reset_wf : Memory.wf State.reset.heap = true := by decide

theorem Memory.resetTo_wf (c : Config) (p : List Instr) :
    Memory.wf (State.resetTo c p).heap = true :=
  (Memory.wf_iff_nil _).2 rfl

end Sys2Proof.Machine
end

