-- ==== Sys2Proof/Laws/PerInstr.lean ====
section
/-! SUPPORT. Statements about every record as syntax, one lemma per constructor. -/

namespace Sys2Proof.Laws.RecordForm

/-- A record is its opcode and its argument (10_state R14), and it is in the encoder's domain exactly
when an argument is present where the arity is 1 and absent where it is 0 (30_encoding R65). -/
def Statement (i : Instr) : Prop :=
  i.op.record i.arg = i ∧ i.wellFormed = (i.arg.isSome == decide (i.op.arity = 1))

theorem nop (arg : Option Value) : Statement (.nop arg) := by cases arg <;> exact ⟨rfl, rfl⟩
theorem push (arg : Option Value) : Statement (.push arg) := by cases arg <;> exact ⟨rfl, rfl⟩
theorem add (arg : Option Value) : Statement (.add arg) := by cases arg <;> exact ⟨rfl, rfl⟩
theorem sub (arg : Option Value) : Statement (.sub arg) := by cases arg <;> exact ⟨rfl, rfl⟩
theorem jmp (arg : Option Value) : Statement (.jmp arg) := by cases arg <;> exact ⟨rfl, rfl⟩
theorem jmpIf (arg : Option Value) : Statement (.jmpIf arg) := by cases arg <;> exact ⟨rfl, rfl⟩
theorem jmpO (arg : Option Value) : Statement (.jmpO arg) := by cases arg <;> exact ⟨rfl, rfl⟩
theorem jmpIfO (arg : Option Value) : Statement (.jmpIfO arg) := by cases arg <;> exact ⟨rfl, rfl⟩

end Sys2Proof.Laws.RecordForm
end

