-- ==== Sys2Proof/Laws/Tick.lean ====
section
/-! SUPPORT. What a tick can do, once (40_tick_cycle R91), and what that says of a step. -/

namespace Sys2Proof.Machine

/-- The three ways a tick ends: the latched fault, the end of the Program, or an executed record. -/
theorem tick_cases {s t : State} {r : TickResult} (h : tick s = .next (t, r)) :
    (∃ e, s.fault = some e ∧ t = s ∧ r = .error e) ∨
    (s.fault = none ∧ s.fetch = none ∧ t = s ∧ r = .error ⟨.noMoreInstructions, s.pc⟩) ∨
    (∃ i, s.fault = none ∧ s.fetch = some i ∧ s.pc.toNat + 1 < 2 ^ 64 ∧
      exec i s.advancePc = .next t ∧ r = resultOfLatch t.fault) := by
  unfold tick at h
  split at h
  · next e he => injection h with h; injection h with h1 h2; exact .inl ⟨e, he, h1.symm, h2.symm⟩
  · next hn =>
    split at h
    · next hf => injection h with h; injection h with h1 h2; exact .inr (.inl ⟨hn, hf, h1.symm, h2.symm⟩)
    · next i hf =>
      split at h
      · next t' he =>
        injection h with h
        injection h with h1 h2
        subst h1
        unfold advanceAndExec at he
        split at he
        · next hlt => exact .inr (.inr ⟨i, hn, hf, hlt, he, h2.symm⟩)
        · cases he
      · cases h
      · cases h

/-- A step is a tick without its result. -/
theorem step_next {s t : State} : step s = .next t ↔ ∃ r, tick s = .next (t, r) := by
  unfold step stateOf
  constructor
  · intro h
    split at h
    · next t' r hr => injection h with h; subst h; exact ⟨r, hr⟩
    · cases h
    · cases h
  · rintro ⟨r, hr⟩
    rw [hr]

end Sys2Proof.Machine
end

