-- ==== Sys2Proof/Tests/Slice0.lean ====
section
/-! SUPPORT. Tests: expected results are those of spec/95_test_vectors.md, and a witness for the hypotheses
of each statement. -/

namespace Sys2Proof.Tests

open Sys2Proof.Machine

/-- The state after reset with the one-record Program `[i]` and this stack (95_test_vectors, part 2). -/
def one (i : Instr) (stack : List Value) : State := { State.resetTo Config.default [i] with stack := stack }

/-- The same with a finite `STACK_CAPACITY`. -/
def capped (bound : Nat) (i : Instr) (stack : List Value) : State :=
  { one i stack with config := { stackCapacity := some bound, progCapacity := none } }

/-- The latch with this error, information word 0. -/
def err (k : ErrorKind) : Option Error := some { kind := k, info := 0 }

/-- `pc`, the stack and the latch after one step. -/
def after (s : State) : Option (Word × List Value × Option Error) :=
  match step s with
  | .next t => some (t.pc, t.stack, t.fault)
  | .fault _ => none
  | .refused _ => none

/-- The result of one tick. -/
def result (s : State) : Option TickResult :=
  match tick s with
  | .next (_, r) => some r
  | .fault _ => none
  | .refused _ => none

/-! ## Records outside the encoder's domain are refused -/

theorem test_illFormed_nop : (Instr.nop (some (.u64 1))).wellFormed = false := by decide
theorem test_illFormed_push : (Instr.push none).wellFormed = false := by decide
theorem test_illFormed_add : (Instr.add (some (.u64 1))).wellFormed = false := by decide
theorem test_illFormed_sub : (Instr.sub (some (.bool true))).wellFormed = false := by decide
theorem test_illFormed_jmp : (Instr.jmp none).wellFormed = false := by decide
theorem test_illFormed_jmpIf : (Instr.jmpIf none).wellFormed = false := by decide
theorem test_illFormed_jmpO : (Instr.jmpO (some (.u64 1))).wellFormed = false := by decide
theorem test_illFormed_jmpIfO : (Instr.jmpIfO (some (.pointer 1))).wellFormed = false := by decide
theorem test_encoder_refuses : encode (.push none) = .error .refusedRecord := by decide

/-! ## Words written out from the encodings (table D, E) -/

theorem test_decode_zeroArgument : decodeProgram none (.ofBytes [0x00, 0x02, 0x03, 0x06, 0x07]) =
    .ok [.nop none, .add none, .sub none, .jmpO none, .jmpIfO none] := by decide
theorem test_decode_push_u64 :
    decodeProgram none (.ofBytes [0x01, 0x00, 0x08, 0x07, 0x06, 0x05, 0x04, 0x03, 0x02, 0x01]) =
    .ok [.push (some (.u64 72623859790382856))] := by decide
theorem test_decode_push_pointer :
    decodeProgram none (.ofBytes [0x01, 0x01, 0xFF, 0xFF, 0xFF, 0xFF, 0xFF, 0xFF, 0xFF, 0xFF]) =
    .ok [.push (some (.pointer 18446744073709551615))] := by decide
theorem test_decode_push_bool : decodeProgram none (.ofBytes [0x01, 0x02, 0x00, 0x01, 0x02, 0xFF]) =
    .ok [.push (some (.bool false)), .push (some (.bool true))] := by decide
theorem test_decode_jmp_bool : decodeProgram none (.ofBytes [0x04, 0x02, 0x01]) =
    .ok [.jmp (some (.bool true))] := by decide
theorem test_decode_jmp_u64 : decodeProgram none (.ofBytes [0x04, 0x00, 0x02, 0, 0, 0, 0, 0, 0, 0]) =
    .ok [.jmp (some (.u64 2))] := by decide
theorem test_decode_jmpIf_pointer :
    decodeProgram none (.ofBytes [0x05, 0x01, 0, 0, 0, 0, 0, 0, 0, 0]) =
    .ok [.jmpIf (some (.pointer 0))] := by decide
theorem test_encode_jmpIf : encode (.jmpIf (some (.u64 256))) =
    .ok [0x05, 0x00, 0x00, 0x01, 0, 0, 0, 0, 0, 0] := by decide
theorem test_encode_pointer : encodeValue (.pointer 4096) = [0x01, 0x00, 0x10, 0, 0, 0, 0, 0, 0] := by
  decide
theorem test_decode_opcode8 : decodeProgram none (.ofBytes [0x00, 0x00, 0x09]) =
    .error .invalidInstruction := by decide
theorem test_decode_highBit : decodeProgram none (.ofBytes [0x80]) = .error .invalidInstruction := by
  decide
theorem test_decode_noKind : decodeProgram none (.ofBytes [0x01]) = .error .unexpectedEOF := by decide
theorem test_decode_shortPayload : decodeProgram none (.ofBytes [0x01, 0x00, 0x01, 0x02, 0x03]) =
    .error .unexpectedEOF := by decide
theorem test_decode_kind3 : decodeProgram none (.ofBytes [0x00, 0x01, 0x03, 0x00]) =
    .error (.invalidObject 2) := by decide
theorem test_decode_kind7 : decodeProgram none (.ofBytes [0x01, 0, 0, 0, 0, 0, 0, 0, 0, 0, 0x04, 0x07]) =
    .error (.invalidObject 11) := by decide
theorem test_decode_ioerr : decodeProgram none ⟨[0x01, 0x02], 0, .ioerr "disk"⟩ =
    .error (.fileError "disk") := by decide
theorem test_decode_capacity : decodeProgram (some 1) (.ofBytes [0x00, 0x00]) =
    .error .programOverflow := by decide
theorem test_decodeValue_consumed : decodeValue (.ofBytes [0x02, 0x05]) =
    .ok (.bool true, ⟨[], 2, .eos⟩) := by decide
theorem test_stateMachine : ((DecoderState.start (.ofBytes [0x01, 0x03])).run none 2).result =
    some (.error (.invalidObject 1)) := by decide
theorem test_tableWord : decodeTableWord 8 0x05 = some (.jmpIf (some (.u64 0))) := by decide
theorem test_written_s2 : readProgramText "[Jmp U64(2), Push U64(99), Nop]".toList =
    some [.jmp (some (.u64 2)), .push (some (.u64 99)), .nop none] := by decide
theorem test_written_lines : readProgramText "Push Bool(true)\nJmpIf U64(0x1F)\nJmpIfO".toList =
    some [.push (some (.bool true)), .jmpIf (some (.u64 31)), .jmpIfO none] := by decide
theorem test_written_tooLarge : readProgramText "[Push U64(18446744073709551616)]".toList = none := by
  decide

/-! ## One tick (tables A to C) -/

theorem test_nop : after (one (.nop none) [.u64 7]) = some (1, [.u64 7], none) := by decide
theorem test_nop_argument : after (one (.nop (some (.u64 1))) [.u64 7]) =
    some (1, [.u64 7], err .invalidInstruction) := by decide
theorem test_push_pointer : after (one (.push (some (.pointer 5))) [.u64 7]) =
    some (1, [.u64 7, .pointer 5], none) := by decide
theorem test_push_full : after (capped 1 (.push (some (.u64 5))) [.u64 7]) =
    some (1, [.u64 7], err .stackOverflow) := by decide
theorem test_add_wraps : after (one (.add none) [.u64 4, .u64 18446744073709551615, .u64 1]) =
    some (1, [.u64 4, .u64 0], none) := by decide
theorem test_add_mixed : after (one (.add none) [.u64 1, .pointer 1]) =
    some (1, [], err .invalidOperator) := by decide
theorem test_sub_order : after (one (.sub none) [.u64 3, .u64 5]) =
    some (1, [.u64 18446744073709551614], none) := by decide
theorem test_sub_one_value : after (one (.sub none) [.u64 1]) =
    some (1, [], err .stackUnderflow) := by decide
theorem test_jmp_far : after (one (.jmp (some (.u64 18446744073709551615))) []) =
    some (18446744073709551615, [], none) := by decide
theorem test_jmp_pointer : after (one (.jmp (some (.pointer 7))) [.u64 1]) =
    some (1, [.u64 1], err .invalidInstruction) := by decide
theorem test_jmpIf_taken : after (one (.jmpIf (some (.u64 9))) [.u64 5, .bool true]) =
    some (9, [.u64 5], none) := by decide
theorem test_jmpIf_integer : after (one (.jmpIf (some (.u64 9))) [.u64 1]) =
    some (1, [], err .invalidInstructionArgument) := by decide
theorem test_jmpO : after (one (.jmpO none) [.u64 2, .u64 6]) = some (6, [.u64 2], none) := by decide
theorem test_jmpO_pointer : after (one (.jmpO none) [.pointer 6]) =
    some (1, [], err .invalidInstructionArgument) := by decide
theorem test_jmpIfO_notTaken : after (one (.jmpIfO none) [.bool false, .u64 6]) =
    some (1, [], none) := by decide
theorem test_jmpIfO_one_bool : after (one (.jmpIfO none) [.bool true]) =
    some (1, [], err .stackUnderflow) := by decide

/-! ## The ends of a run (S4, P4, P8) -/

theorem test_end : result { one (.nop none) [.u64 7] with pc := 1 } =
    some (.error { kind := .noMoreInstructions, info := 1 }) := by decide
theorem test_end_unchanged : after { one (.nop none) [.u64 7] with pc := 1 } =
    some (1, [.u64 7], none) := by decide
theorem test_latched_first : result { one (.nop none) [] with pc := 1, fault := err .invalidOperator } =
    some (.error { kind := .invalidOperator, info := 0 }) := by decide
theorem test_latched_runs_nothing :
    after { one (.push (some (.u64 1))) [] with fault := err .stackUnderflow } =
    some (0, [], err .stackUnderflow) := by decide
theorem test_withFetchWord : after (State.reset.withFetchWord 8 0x01) = some (1, [.u64 0], none) := by
  decide
theorem test_withFetchWord_push_bool : after (State.reset.withFetchWord 24 0x010201) =
    some (1, [.bool true], none) := by decide

/-! ## Witnesses: a state and operands that meet the hypotheses of each statement -/

theorem witness_DecodeOfEncodeIsTheRecord :
    encode (.push (some (.bool true))) = .ok [0x01, 0x02, 0x01] := by decide
theorem witness_ProgramRoundTrip :
    programWellFormed [.push (some (.u64 1)), .jmp (some (.bool true)), .nop none] = true := by decide
theorem witness_EncoderDomainAndLengths :
    (Instr.jmp (some (.pointer 0))).wellFormed = true ∧ (Instr.jmp none).wellFormed = false := by decide
theorem witness_UnknownOpcodeByteIsRejected :
    8 ≤ (8 : Byte).toNat ∧ encodeProgram [.nop none] = .ok [0x00] := by decide
theorem witness_UnknownKindByteIsRejected : 3 ≤ (3 : Byte).toNat ∧ Opcode.push.arity = 1 := by decide
theorem witness_TruncatedInstructionFails :
    encode (.push (some (.bool true))) = .ok [0x01, 0x02, 0x01] ∧ 0 < 2 ∧
      2 < [0x01, 0x02, (0x01 : Byte)].length := by decide
theorem witness_DecodeConsumesOneInstruction :
    decodeInstruction ⟨[0x01, 0x02, 0x07, 0x00], 5, .eos⟩ =
      .ok (.push (some (.bool true)), ⟨[0x00], 8, .eos⟩) := by decide
/-- With this one, `ReencodingRestoresCanonicalBytes` has a payload byte on either side of its condition. -/
theorem witness_ReencodingRestoresCanonicalBytes :
    decodeInstruction ⟨[0x01, 0x02, 0x01], 0, .eos⟩ = .ok (.push (some (.bool true)), ⟨[], 3, .eos⟩) ∧
    (⟨[], 3, .eos⟩ : Stream).off = 0 + 3 := by decide
theorem witness_ProgramCapacityBoundsTheDecoder :
    decodeProgram none (.ofBytes [0x00, 0x00]) = .ok [.nop none, .nop none] := by decide
theorem witness_WriterAppendsTheEncoding :
    encodeProgram [.nop none] = .ok [0x00] ∧ fits (some 1) [(0x00 : Byte)].length = true ∧
      fits (some 0) [(0x00 : Byte)].length = false := by decide
theorem witness_WriterAppendsTheEncoding_endings :
    (⟨[], some 0, .eos⟩ : Sink).ending = .eos ∧
      (⟨[], some 0, .ioerr "full"⟩ : Sink).ending = .ioerr "full" := by decide
theorem witness_WriterAppendsTheEncoding_refused :
    programWellFormed [.nop none, .push none] = false := by decide
theorem witness_WrittenProgramReadsBack :
    programWellFormed [.push (some (.pointer 10)), .jmpIfO none] = true := by decide
/-- For StepRunsTheFetchedRecord, and with the record at hand for the third clause of
InvalidInstructionCauses and the last of NopHasNoEffect. -/
theorem witness_StepRunsTheFetchedRecord :
    (one (.nop none) []).ProgFits ∧ (one (.nop none) []).fault = none ∧
      (one (.nop none) []).fetch = some (.nop none) := by decide
theorem witness_StepRunsThePlacedInstruction :
    State.reset.ProgFits ∧ decodeTableWord 8 0x02 = some (.add none) := by decide
theorem witness_Inv : State.reset.Inv := ⟨by decide, by decide, by decide, rfl, by decide⟩
theorem witness_NoMoreInstructionsExactlyAtTheEnd :
    State.reset.fault = none ∧ State.reset.prog.length ≤ State.reset.pc.toNat ∧
      tick State.reset = .next (State.reset, .error ⟨.noMoreInstructions, 0⟩) :=
  ⟨by decide, by decide, rfl⟩
/-- Also for FirstFaultIsKept, with `n = 1`. -/
theorem witness_LatchedFaultIsReportedAgain :
    ({ one (.nop none) [] with fault := err .stackUnderflow } : State).fault = err .stackUnderflow ∧
      core.run 1 { one (.nop none) [] with fault := err .stackUnderflow } =
        .next { one (.nop none) [] with fault := err .stackUnderflow } := ⟨by decide, rfl⟩
theorem witness_TickResultIsWhatItLatches :
    (one (.jmpO none) []).fault = none ∧ (one (.jmpO none) []).fetch = some (.jmpO none) ∧
      tick (one (.jmpO none) []) =
        .next ({ one (.jmpO none) [] with pc := 1, fault := err .stackUnderflow },
          .error ⟨.stackUnderflow, 0⟩) := ⟨by decide, by decide, rfl⟩
theorem witness_TickResultIsWhatItLatches_ok :
    tick (one (.nop none) []) = .next ({ one (.nop none) [] with pc := 1 }, .ok) := rfl
theorem witness_EveryStepAnswersANextState : State.reset.ProgFits := by decide
theorem witness_HaltedIsTerminal : State.reset.engine = .halted := by decide
/-- Also for PcIsAdvancedBeforeTheRecordActs: each of the four jumps taken, the targets at both ends of what
is out of the Program. -/
theorem witness_JumpOutOfTheProgramCompletes :
    (one (.jmp (some (.u64 1))) []).ProgFits ∧ (one (.jmp (some (.u64 1))) []).fault = none ∧
      (one (.jmp (some (.u64 1))) []).fetch = some (.jmp (some (.u64 1))) ∧
      IsTakenJump (.jmp (some (.u64 1))) (one (.jmp (some (.u64 1))) []).stack [] 1 ∧
      (one (.jmp (some (.u64 1))) []).prog.length ≤ (1 : Word).toNat := by decide
theorem witness_JumpOutOfTheProgramCompletes_conditional :
    IsTakenJump (.jmpIf (some (.u64 1))) (one (.jmpIf (some (.u64 1))) [.bool true]).stack [] 1 ∧
    IsTakenJump (.jmpO none) (one (.jmpO none) [.u64 18446744073709551615]).stack []
      18446744073709551615 ∧
    IsTakenJump (.jmpIfO none) (one (.jmpIfO none) [.u64 3, .bool true, .u64 1]).stack [.u64 3] 1 ∧
    (one (.jmpIfO none) [.u64 3, .bool true, .u64 1]).prog.length ≤ (1 : Word).toNat := by decide
/-- The third clause, with a condition that is false, and the fourth. -/
theorem witness_PcIsAdvancedBeforeTheRecordActs :
    (∀ (rest : List Value) (target : Word),
      ¬ IsTakenJump (.jmpIf (some (.u64 9))) [.bool false] rest target) ∧
    tick (one (.jmpIf (some (.u64 9))) [.bool false]) =
      .next ({ one (.jmpIf (some (.u64 9))) [] with pc := 1 }, .ok) ∧
    tick (one (.jmpO none) []) = .next ({ one (.jmpO none) [] with pc := 1, fault := err .stackUnderflow },
      .error ⟨.stackUnderflow, 0⟩) := by
  refine ⟨?_, rfl, rfl⟩
  rintro rest target (⟨h, -⟩ | ⟨-, h⟩ | ⟨h, -⟩ | ⟨h, -⟩)
  · cases h
  · cases rest <;> simp at h
  · cases h
  · cases h
theorem witness_NopHasNoEffect_last :
    (one (.nop none) []).pc.toNat + 1 = (one (.nop none) []).prog.length := by decide
theorem witness_PushAppendsItsArgument :
    (capped 1 (.push (some (.u64 1))) []).hasRoom = true ∧
      (one (.push (some (.u64 1))) []).config.stackCapacity = none := by decide
/-- The clauses of AddReplacesTheTwoTopValues and SubReplacesTheTwoTopValues, the first two at a full
stack. -/
theorem witness_AddReplacesTheTwoTopValues :
    (capped 2 (.add none) [.u64 1, .u64 2]).StackFits ∧
    (capped 2 (.add none) [.u64 1, .u64 2]).stack = [] ++ [.u64 1, .u64 2] ∧
    (capped 2 (.add none) [.pointer 1, .pointer 2]).StackFits ∧
    (capped 2 (.add none) [.pointer 1, .pointer 2]).stack = [] ++ [.pointer 1, .pointer 2] ∧
    (one (.add none) []).stack = [] ∧ (one (.add none) [.bool true]).stack = [.bool true] ∧
    (one (.add none) [.bool true, .bool true]).stack = [] ++ [.bool true, .bool true] ∧
    (Value.bool true).kind = .bool := by decide
theorem witness_SubReplacesTheTwoTopValues :
    (capped 2 (.sub none) [.u64 0, .u64 1]).StackFits ∧
    (capped 2 (.sub none) [.u64 0, .u64 1]).stack = [] ++ [.u64 0, .u64 1] ∧
    (capped 2 (.sub none) [.pointer 0, .pointer 1]).StackFits ∧
    (capped 2 (.sub none) [.pointer 0, .pointer 1]).stack = [] ++ [.pointer 0, .pointer 1] ∧
    (one (.sub none) []).stack = [] ∧ (one (.sub none) [.u64 1]).stack = [.u64 1] ∧
    (one (.sub none) [.u64 1, .pointer 1]).stack = [] ++ [.u64 1, .pointer 1] ∧
    (Value.u64 1).kind ≠ (Value.pointer 1).kind := by decide
theorem witness_JmpSetsPc :
    (none : Option Value).map Value.kind ≠ some .u64 ∧
      (some (Value.pointer 7)).map Value.kind ≠ some .u64 := by decide
theorem witness_JmpIfPopsTheCondition :
    (one (.jmpIf (some (.u64 9))) [.bool true]).stack = [] ++ [.bool true] ∧
    (one (.jmpIf (some (.u64 9))) [.bool false]).stack = [] ++ [.bool false] ∧
    (one (.jmpIf (some (.u64 9))) []).stack = [] ∧
    (one (.jmpIf (some (.u64 9))) [.u64 0]).stack = [] ++ [.u64 0] ∧ (Value.u64 0).kind ≠ .bool := by
  decide
theorem witness_JmpOPopsTheTarget :
    (one (.jmpO none) [.u64 6]).stack = [] ++ [.u64 6] ∧ (one (.jmpO none) []).stack = [] ∧
    (one (.jmpO none) [.pointer 6]).stack = [] ++ [.pointer 6] ∧ (Value.pointer 6).kind ≠ .u64 := by
  decide
theorem witness_JmpIfOPopsAddressThenCondition :
    (one (.jmpIfO none) [.bool true, .u64 6]).stack = [] ++ [.bool true, .u64 6] ∧
    (one (.jmpIfO none) [.bool false, .u64 6]).stack = [] ++ [.bool false, .u64 6] ∧
    (one (.jmpIfO none) []).stack = [] ∧ (one (.jmpIfO none) [.u64 6]).stack = [.u64 6] ∧
    (one (.jmpIfO none) [.bool false, .pointer 6]).stack = [] ++ [.bool false, .pointer 6] ∧
    (Value.pointer 6).kind ≠ .u64 := by decide
theorem witness_ApplyOperatorOnEveryPairOfKinds :
    (Value.bool false).kind = .bool ∧ (Value.u64 0).kind ≠ (Value.pointer 0).kind := by decide
theorem witness_InvalidInstructionCauses :
    encodeProgram [] = .ok [] ∧ 8 ≤ (0xFF : Byte).toNat ∧ State.reset.config.progCapacity = none ∧
    (one (.push none) []).ProgFits ∧ (one (.push none) []).fault = none ∧
    (one (.push none) []).fetch = some (.push none) ∧ valid (.push none) = false := by decide
theorem witness_InvalidInstructionCauses_valid :
    (one (.jmp (some (.u64 0))) []).fault = none ∧ valid (.jmp (some (.u64 0))) = true ∧
      exec (.jmp (some (.u64 0))) (one (.jmp (some (.u64 0))) []) =
        .next (one (.jmp (some (.u64 0))) []) := ⟨by decide, by decide, rfl⟩
theorem witness_InvalidOperatorExactlyOnMismatch :
    (one (.add none) [.u64 1, .bool false]).fault = none ∧
    (one (.add none) [.u64 1, .bool false]).stack = [] ++ [.u64 1, .bool false] ∧
    exec (.add none) (one (.add none) [.u64 1, .bool false]) =
      .next { one (.add none) [] with fault := err .invalidOperator } := ⟨by decide, by decide, rfl⟩
theorem witness_InvalidArgumentExactlyOnWrongKind :
    (one (.jmpO none) [.bool true]).fault = none ∧
    (one (.jmpO none) [.bool true]).stack = [] ++ [.bool true] ∧ (Value.bool true).kind ≠ .u64 ∧
    exec (.jmpO none) (one (.jmpO none) [.bool true]) =
      .next { one (.jmpO none) [] with fault := err .invalidInstructionArgument } :=
  ⟨by decide, by decide, by decide, rfl⟩
theorem witness_InvalidArgumentExactlyOnWrongKind_conditions :
    (one (.jmpIf (some (.u64 9))) [.pointer 1]).stack = [] ++ [.pointer 1] ∧
    (Value.pointer 1).kind ≠ .bool ∧
    (one (.jmpIfO none) [.u64 1, .u64 6]).stack = [] ++ [.u64 1, .u64 6] ∧
    (Value.u64 1).kind ≠ .bool := by decide
theorem witness_UnderflowExactlyWhenTooFewValues :
    valid (.jmpIfO none) = true ∧ (one (.jmpIfO none) [.u64 6]).stack.length < popsOf (.jmpIfO none) ∧
    (one (.jmpIfO none) [.u64 6]).fault = none ∧
    exec (.jmpIfO none) (one (.jmpIfO none) [.u64 6]) =
      .next { one (.jmpIfO none) [] with fault := err .stackUnderflow } :=
  ⟨by decide, by decide, by decide, rfl⟩
theorem witness_OverflowExactlyWhenFull :
    (capped 1 (.push (some (.u64 1))) [.u64 7]).StackFits ∧
    (capped 1 (.push (some (.u64 1))) [.u64 7]).fault = none ∧
    (capped 1 (.push (some (.u64 1))) [.u64 7]).config.stackCapacity =
      some (capped 1 (.push (some (.u64 1))) [.u64 7]).stack.length ∧
    exec (.push (some (.u64 1))) (capped 1 (.push (some (.u64 1))) [.u64 7]) =
      .next { capped 1 (.push (some (.u64 1))) [.u64 7] with fault := err .stackOverflow } :=
  ⟨by decide, by decide, by decide, rfl⟩
theorem witness_CompletesExactlyWhenReady :
    (one (.sub none) [.u64 1, .u64 2]).fault = none ∧ (one (.sub none) [.u64 1, .u64 2]).StackFits ∧
    ready (.sub none) (one (.sub none) [.u64 1, .u64 2]) = true ∧
    ready (.sub none) (one (.sub none) [.u64 2]) = false := by decide
theorem witness_FailingTickAdvancesAndOnlyPops :
    (one (.jmpIf (some (.u64 9))) [.u64 1]).fault = none ∧
    step (one (.jmpIf (some (.u64 9))) [.u64 1]) =
      .next { one (.jmpIf (some (.u64 9))) [] with pc := 1, fault := err .invalidInstructionArgument } :=
  ⟨by decide, rfl⟩
theorem witness_FailingInstructionNeverJumps :
    (one (.jmpIf (some (.u64 9))) []).fault = none ∧
    exec (.jmpIf (some (.u64 9))) (one (.jmpIf (some (.u64 9))) []) =
      .next { one (.jmpIf (some (.u64 9))) [] with fault := err .stackUnderflow } := ⟨by decide, rfl⟩
/-- OnlyJumpsWritePc and PcChangesInTwoWaysOnly at the jump with two operands. -/
theorem witness_OnlyJumpsWritePc_jmpIfO :
    exec (.jmpIfO none) (one (.jmpIfO none) [.bool true, .u64 6]) =
      .next { one (.jmpIfO none) [] with pc := 6 } ∧
    step (one (.jmpIfO none) [.bool true, .u64 6]) = .next { one (.jmpIfO none) [] with pc := 6 } :=
  ⟨rfl, rfl⟩
/-- For NoInstructionWritesProgramOrHeap, OnlyJumpsWritePc, OnlyTheTopOfTheStackChanges and
OnlyFatalErrorsAreLatched: a jump that is made, with a value under the target. -/
theorem witness_frames :
    exec (.jmpO none) (one (.jmpO none) [.u64 2, .u64 6]) =
      .next { one (.jmpO none) [.u64 2] with pc := 6 } ∧ valid (.jmpO none) = true ∧
    (6 : Word) ≠ (one (.jmpO none) [.u64 2, .u64 6]).pc := ⟨rfl, by decide, by decide⟩
theorem witness_OnlyTheTopOfTheStackChanges_invalid :
    exec (.add (some (.u64 1))) (one (.add none) [.u64 1]) =
      .next { one (.add none) [.u64 1] with fault := err .invalidInstruction } ∧
    valid (.add (some (.u64 1))) = false := ⟨rfl, by decide⟩
theorem witness_PcChangesInTwoWaysOnly :
    (one (.jmpO none) [.u64 6]).ProgFits ∧ (one (.jmpO none) [.u64 6]).engine = .running ∧
    step (one (.jmpO none) [.u64 6]) = .next { one (.jmpO none) [] with pc := 6 } :=
  ⟨by decide, by decide, rfl⟩
theorem witness_ProgramIsConstantDuringARun :
    core.run 1 (one (.nop none) []) = .next { one (.nop none) [] with pc := 1 } := rfl
theorem witness_TickReadsOnlyTheFetchedRecord :
    [Instr.nop none, .add none][(one (.nop none) []).pc.toNat]? = (one (.nop none) []).fetch ∧
    tick (one (.nop none) []) = .next ({ one (.nop none) [] with pc := 1 }, .ok) := ⟨by decide, rfl⟩
theorem witness_StackBelowIsNeverRead :
    (one (.add none) [.u64 1, .u64 2]).config.stackCapacity = none ∧
    exec (.add none) (one (.add none) [.u64 1, .u64 2]) = .next (one (.add none) [.u64 3]) ∧
    ∀ e : Error, (one (.add none) [.u64 3]).fault = some e → e.kind ≠ .stackUnderflow :=
  ⟨by decide, rfl, fun _ h => nomatch h⟩
theorem witness_ResetPutsEveryElementAtItsValue :
    admits (capped 9 (.nop none) []).config [.nop none] = true ∧
      admits (⟨none, some 1⟩ : Config) [.nop none] = true := by decide
theorem witness_LoadDecodesThenResets :
    decodeProgram State.reset.config.progCapacity (.ofBytes [0x00]) = .ok [.nop none] ∧
    admits State.reset.config [.nop none] = true ∧
    decodeProgram State.reset.config.progCapacity (.ofBytes [0x08]) = .error .invalidInstruction := by
  decide
theorem witness_ErrorCodesNameTheKinds :
    ErrorKind.stackUnderflow ≠ ErrorKind.invalidOperator := by decide
theorem witness_InvariantHoldsAfterReset :
    (⟨some 4, some 1⟩ : Config).wellFormed = true ∧
      admits (⟨some 4, some 1⟩ : Config) [.nop none] = true := by decide
theorem witness_AnErrorEndsTheRun_normally :
    State.reset.Inv ∧ tick State.reset = .next (State.reset, .error ⟨.noMoreInstructions, 0⟩) :=
  ⟨witness_Inv, rfl⟩
theorem witness_inv_running : (capped 1 (.push (some (.bool true))) []).Inv :=
  ⟨by decide, by decide, by decide, rfl, by decide⟩
theorem witness_AnErrorEndsTheRun_fault :
    (one (.add none) []).Inv ∧ tick (one (.add none) []) =
      .next ({ one (.add none) [] with pc := 1, fault := err .stackUnderflow },
        .error ⟨.stackUnderflow, 0⟩) := ⟨⟨by decide, by decide, by decide, rfl, by decide⟩, rfl⟩
theorem witness_EveryStepKeepsTheInvariant :
    (capped 1 (.push (some (.bool true))) []).Inv ∧
    step (capped 1 (.push (some (.bool true))) []) =
      .next { capped 1 (.push (some (.bool true))) [.bool true] with pc := 1 } :=
  ⟨witness_inv_running, rfl⟩
/-- One command of each kind: a reset, a load, a tick. -/
theorem witness_EveryCommandKeepsTheInvariant :
    State.reset.Inv ∧
      command (.reset [.nop none]) State.reset =
        .next (State.resetTo State.reset.config [.nop none], .done) ∧
      command (.load (.ofBytes [0x00])) State.reset =
        .next (State.resetTo State.reset.config [.nop none], .done) ∧
      command .tick State.reset =
        .next (State.reset, .ticked (.error ⟨.noMoreInstructions, 0⟩)) := ⟨witness_Inv, rfl, rfl, rfl⟩

end Sys2Proof.Tests
end

/-! SUPPORT. The frame of an instruction, read off `Effect`, and the invariant of 00_scope R5, 10_state
R20, R21 and R23: it holds after a reset and every step keeps it. -/

namespace Sys2Proof.Machine

@[simp] theorem jumpIf_config (taken : Bool) (t : Word) (s : State) :
    (jumpIf taken t s).config = s.config := by cases taken <;> rfl
@[simp] theorem jumpIf_prog (taken : Bool) (t : Word) (s : State) :
    (jumpIf taken t s).prog = s.prog := by cases taken <;> rfl
@[simp] theorem jumpIf_stack (taken : Bool) (t : Word) (s : State) :
    (jumpIf taken t s).stack = s.stack := by cases taken <;> rfl
@[simp] theorem jumpIf_heap (taken : Bool) (t : Word) (s : State) :
    (jumpIf taken t s).heap = s.heap := by cases taken <;> rfl
@[simp] theorem jumpIf_fault (taken : Bool) (t : Word) (s : State) :
    (jumpIf taken t s).fault = s.fault := by cases taken <;> rfl

theorem Effect.config_eq {s t : State} {i : Instr} (h : Effect s i t) : t.config = s.config := by
  cases h <;> simp

theorem Effect.prog_eq {s t : State} {i : Instr} (h : Effect s i t) : t.prog = s.prog := by
  cases h <;> simp

theorem Effect.heap_eq {s t : State} {i : Instr} (h : Effect s i t) : t.heap = s.heap := by
  cases h <;> simp

/-- An instruction leaves the latch or latches a fatal kind with the information word 0 (40_tick_cycle
R89, 60_exceptions R148, R149). -/
theorem Effect.fault_cases {s t : State} {i : Instr} (h : Effect s i t) :
    t.fault = s.fault ∨ ∃ k : ErrorKind, k.fatal = true ∧ t.fault = some ⟨k, 0⟩ := by
  cases h with
  | nop | push | operator | jmp | jmpIf | jmpO | jmpIfO => left; simp
  | invalid => exact .inr ⟨.invalidInstruction, rfl, rfl⟩
  | underflow => exact .inr ⟨.stackUnderflow, rfl, rfl⟩
  | badOperator => exact .inr ⟨.invalidOperator, rfl, rfl⟩
  | pushFull | operatorFull => exact .inr ⟨.stackOverflow, rfl, rfl⟩
  | jmpIfBad | jmpOBad | jmpIfOBad => exact .inr ⟨.invalidInstructionArgument, rfl, rfl⟩

/-- An instruction leaves the old stack but for some popped values, and pushes at most one value on what
it left, having found room for it (40_tick_cycle R87, R88). -/
theorem Effect.stack_cases {s t : State} {i : Instr} (h : Effect s i t) :
    t.stack <+: s.stack ∨
      ∃ r v, r <+: s.stack ∧ ({ s with stack := r } : State).hasRoom = true ∧ t.stack = r ++ [v] := by
  cases h with
  | push hr => exact .inr ⟨s.stack, _, List.prefix_refl _, hr, rfl⟩
  | operator _ hs _ hr => exact .inr ⟨_, _, ⟨_, hs.symm⟩, hr, rfl⟩
  | invalid | nop | pushFull | underflow | jmp => left; simp
  | badOperator _ hs | operatorFull _ hs | jmpIf hs | jmpIfBad hs | jmpO hs | jmpOBad hs | jmpIfO hs
  | jmpIfOBad hs => left; simp [hs]

theorem Effect.stackFits {s t : State} {i : Instr} (h : Effect s i t) (hf : s.StackFits) :
    t.StackFits := by
  unfold State.StackFits
  rw [h.config_eq]
  rcases h.stack_cases with hp | ⟨r, v, -, hr, ht⟩
  · exact fits_of_le hf hp.length_le
  · simpa [State.hasRoom, ht] using hr

/-- Steps 3 and 4 keep the invariant, whatever the record. -/
theorem Effect.inv {s t : State} {i : Instr} (h : Effect s i t) (hi : s.Inv) : t.Inv where
  configFits := by rw [h.config_eq]; exact hi.configFits
  progFits := by unfold State.ProgFits; rw [h.config_eq, h.prog_eq]; exact hi.progFits
  stackFits := h.stackFits hi.stackFits
  heapEmpty := h.heap_eq.trans hi.heapEmpty
  latchFatal := by
    rcases h.fault_cases with ht | ⟨k, hk, ht⟩
    · rw [ht]; exact hi.latchFatal
    · simp [ht, latchWellFormed, hk]

/-- The invariant does not speak of `pc`, all that step 2 changes (40_tick_cycle R83). -/
theorem State.Inv.advancePc {s : State} (h : s.Inv) : s.advancePc.Inv :=
  ⟨h.configFits, h.progFits, h.stackFits, h.heapEmpty, h.latchFatal⟩

theorem tick_inv {s t : State} {r : TickResult} (h : s.Inv) (ht : tick s = .next (t, r)) : t.Inv := by
  rcases tick_cases ht with ⟨_, -, rfl, -⟩ | ⟨-, -, rfl, -⟩ | ⟨i, -, -, -, hx, -⟩
  · exact h
  · exact h
  · exact (exec_effect hx).inv h.advancePc

theorem fits_zero (c : Option Nat) : fits c 0 = true := by
  cases c with
  | none => rfl
  | some bound => exact (fits_some bound 0).2 (Nat.zero_le bound)

/-- A reset with an admitted Program establishes the invariant (10_state R25). -/
theorem State.resetTo_inv {c : Config} {p : List Instr} (hc : c.wellFormed = true)
    (hp : admits c p = true) : (State.resetTo c p).Inv where
  configFits := hc
  progFits := hp
  stackFits := fits_zero c.stackCapacity
  heapEmpty := rfl
  latchFatal := rfl

theorem State.reset_eq_resetTo : State.reset = State.resetTo Config.default [] := rfl

/-- Settles O57: a tick that runs a record is step 2 and an `Effect`, and each keeps the invariant; the
other ticks leave the state. -/
theorem everyStepKeepsTheInvariant : Obligations.EveryStepKeepsTheInvariant := by
  intro s t hi hs
  obtain ⟨r, ht⟩ := step_next.1 hs
  exact tick_inv hi ht

/-- Settles O56: `State.reset` is itself a reset with an admitted Program, the empty one. -/
theorem invariantHoldsAfterReset : Obligations.InvariantHoldsAfterReset :=
  ⟨State.reset_eq_resetTo ▸ State.resetTo_inv rfl (by decide), fun _ _ => State.resetTo_inv⟩

end Sys2Proof.Machine

/-! SUPPORT. The converse of `exec_effect`: an `Effect` is what `exec` answers. So a fact about two runs
of an instruction is a map from the effects of the one to those of the other. -/

namespace Sys2Proof.Machine

theorem exec_of_not_valid {i : Instr} (s : State) (h : valid i = false) :
    exec i s = .next (s.latch .invalidInstruction) := by
  cases i with
  | push arg =>
    cases arg with
    | none => rfl
    | some _ => cases h
  | nop arg | add arg | sub arg | jmpO arg | jmpIfO arg =>
    cases arg with
    | none => cases h
    | some _ => rfl
  | jmp arg | jmpIf arg =>
    rcases arg with _ | (_ | _ | _)
    · rfl
    · cases h
    · rfl
    · rfl

/-- One pop that underflows: the empty stack it finds is the one it leaves (40_tick_cycle R87). -/
theorem State.withPop_of_short {s : State} (k : Value → State → Result) (h : s.stack.length < 1) :
    s.withPop k = .next (({ s with stack := [] } : State).latch .stackUnderflow) := by
  have hs : s.stack = [] := by simpa using h
  rw [State.withPop_empty k hs, ← hs]

/-- Two pops of which one underflows: a value popped before stays popped (R87, decision D7). -/
theorem State.withPop_two_of_short {s : State} (k : Value → Value → State → Result)
    (h : s.stack.length < 2) :
    (s.withPop fun v s1 => s1.withPop (k v)) =
      .next (({ s with stack := [] } : State).latch .stackUnderflow) := by
  match hs : s.stack, h with
  | [], _ => exact State.withPop_of_short _ (by simp [hs])
  | [v], _ => rw [State.withPop_top (r := []) _ (by simpa using hs), State.withPop_empty _ rfl]

theorem exec_of_underflow {i : Instr} {s : State} (hv : valid i = true)
    (h : s.stack.length < popsOf i) :
    exec i s = .next (({ s with stack := [] } : State).latch .stackUnderflow) := by
  cases i with
  | nop | push | jmp => exact absurd h (Nat.not_lt_zero _)
  | add arg | sub arg | jmpIfO arg =>
    cases arg with
    | none => exact State.withPop_two_of_short _ h
    | some _ => cases hv
  | jmpO arg =>
    cases arg with
    | none => rw [exec_jmpO_none]; exact State.withPop_of_short _ h
    | some _ => cases hv
  | jmpIf arg =>
    rcases arg with _ | (n | _ | _)
    · cases hv
    · rw [exec_jmpIf_u64]; exact State.withPop_of_short _ h
    · cases hv
    · cases hv

theorem exec_eq_binaryOperator {i : Instr} {op : Word → Word → Word} (s : State)
    (hi : (i = .add none ∧ op = addWord) ∨ (i = .sub none ∧ op = subWord)) :
    exec i s = binaryOperator op s := by
  rcases hi with ⟨rfl, rfl⟩ | ⟨rfl, rfl⟩ <;> rfl

theorem binaryOperator_of_mismatch {op : Word → Word → Word} {s : State} {r : List Value}
    {lhs rhs : Value} (hs : s.stack = r ++ [lhs, rhs]) (h : applyOperator op lhs rhs = none) :
    binaryOperator op s = .next (({ s with stack := r } : State).latch .invalidOperator) := by
  rw [binaryOperator, State.withPop_top (r := r ++ [lhs]) (v := rhs) _ (by simp [hs]),
    State.withPop_top _ rfl, h]
  rfl

theorem binaryOperator_of_result {op : Word → Word → Word} {s : State} {r : List Value}
    {lhs rhs v : Value} (hs : s.stack = r ++ [lhs, rhs]) (h : applyOperator op lhs rhs = some v) :
    binaryOperator op s = ({ s with stack := r } : State).pushValue v := by
  rw [binaryOperator, State.withPop_top (r := r ++ [lhs]) (v := rhs) _ (by simp [hs]),
    State.withPop_top _ rfl, h]

theorem withCondition_of_kind_ne {v : Value} (s : State) (k : Bool → Result) (h : v.kind ≠ .bool) :
    withCondition v s k = .next (s.latch .invalidInstructionArgument) := by
  cases v with
  | bool b => exact absurd rfl h
  | u64 | pointer => rfl

theorem withTarget_of_kind_ne {v : Value} (s : State) (k : Word → Result) (h : v.kind ≠ .u64) :
    withTarget v s k = .next (s.latch .invalidInstructionArgument) := by
  cases v with
  | u64 n => exact absurd rfl h
  | pointer | bool => rfl

/-- `JmpIfO` once both operands are popped (43_jumps R124). -/
theorem exec_jmpIfO_of_stack {s : State} {r : List Value} {c a : Value} (hs : s.stack = r ++ [c, a]) :
    exec (.jmpIfO none) s =
      withTarget a { s with stack := r } fun t =>
        withCondition c { s with stack := r } fun taken => .next (jumpIf taken t { s with stack := r }) :=
  State.withPop_two (k := fun a c s2 =>
    withTarget a s2 fun t => withCondition c s2 fun taken => .next (jumpIf taken t s2)) hs

theorem exec_jmpIfO_of_bad_operands {s : State} {r : List Value} {c a : Value}
    (hs : s.stack = r ++ [c, a]) (h : a.kind ≠ .u64 ∨ c.kind ≠ .bool) :
    exec (.jmpIfO none) s =
      .next (({ s with stack := r } : State).latch .invalidInstructionArgument) := by
  rw [exec_jmpIfO_of_stack hs]
  by_cases ha : a.kind = .u64
  · cases a with
    | u64 n => exact withCondition_of_kind_ne _ _ (h.resolve_left fun hn => hn ha)
    | pointer | bool => cases ha
  · exact withTarget_of_kind_ne _ _ ha

theorem exec_of_effect {i : Instr} {s t : State} (h : Effect s i t) : exec i s = .next t := by
  cases h with
  | invalid hv => exact exec_of_not_valid s hv
  | nop | jmp => rfl
  | push hr => exact State.pushValue_room _ hr
  | pushFull hr => exact State.pushValue_full _ hr
  | underflow hv hlt => exact exec_of_underflow hv hlt
  | badOperator hi hs hn =>
    rcases hi with rfl | rfl
    · exact binaryOperator_of_mismatch hs (hn addWord)
    · exact binaryOperator_of_mismatch hs (hn subWord)
  | operator hi hs ho hr =>
    rw [exec_eq_binaryOperator s hi, binaryOperator_of_result hs ho, State.pushValue_room _ hr]
  | operatorFull hi hs ho hr =>
    rw [exec_eq_binaryOperator s hi, binaryOperator_of_result hs ho, State.pushValue_full _ hr]
  | jmpIf hs => rw [exec_jmpIf_u64, State.withPop_top _ hs]; rfl
  | jmpIfBad hs hk =>
    rw [exec_jmpIf_u64, State.withPop_top _ hs, withCondition_of_kind_ne _ _ hk]
  | jmpO hs => rw [exec_jmpO_none, State.withPop_top _ hs]; rfl
  | jmpOBad hs hk => rw [exec_jmpO_none, State.withPop_top _ hs, withTarget_of_kind_ne _ _ hk]
  | jmpIfO hs => rw [exec_jmpIfO_of_stack hs]; rfl
  | jmpIfOBad hs hk => exact exec_jmpIfO_of_bad_operands hs hk

/-! An instruction never stops: each shared operation answers a next state when what follows it does. -/

theorem State.withPop_answers {s : State} {k : Value → State → Result}
    (h : ∀ v s', ∃ t, k v s' = .next t) : ∃ t, s.withPop k = .next t := by
  rcases List.eq_nil_or_concat s.stack with hs | ⟨r, v, hs⟩
  · exact ⟨_, State.withPop_empty k hs⟩
  · rw [State.withPop_top k (hs.trans List.concat_eq_append)]
    exact h v _

theorem State.pushValue_answers (v : Value) (s : State) : ∃ t, s.pushValue v = .next t := by
  cases h : s.hasRoom with
  | true => exact ⟨_, State.pushValue_room v h⟩
  | false => exact ⟨_, State.pushValue_full v h⟩

theorem withCondition_answers {v : Value} {s : State} {k : Bool → Result}
    (h : ∀ b, ∃ t, k b = .next t) : ∃ t, withCondition v s k = .next t := by
  cases v with
  | bool b => exact h b
  | u64 | pointer => exact ⟨_, rfl⟩

theorem withTarget_answers {v : Value} {s : State} {k : Word → Result}
    (h : ∀ n, ∃ t, k n = .next t) : ∃ t, withTarget v s k = .next t := by
  cases v with
  | u64 n => exact h n
  | pointer | bool => exact ⟨_, rfl⟩

theorem binaryOperator_answers (op : Word → Word → Word) (s : State) :
    ∃ t, binaryOperator op s = .next t :=
  State.withPop_answers fun rhs s1 => State.withPop_answers fun lhs s2 => by
    cases h : applyOperator op lhs rhs with
    | none => exact ⟨_, rfl⟩
    | some v => exact State.pushValue_answers v s2

theorem exec_answers_of_valid {i : Instr} (s : State) (hv : valid i = true) :
    ∃ t, exec i s = .next t := by
  cases i with
  | nop arg =>
    cases arg with
    | none => exact ⟨s, rfl⟩
    | some _ => cases hv
  | push arg =>
    cases arg with
    | none => cases hv
    | some v => exact State.pushValue_answers v s
  | add arg | sub arg =>
    cases arg with
    | none => exact binaryOperator_answers _ s
    | some _ => cases hv
  | jmp arg =>
    rcases arg with _ | (n | _ | _)
    · cases hv
    · exact ⟨_, rfl⟩
    · cases hv
    · cases hv
  | jmpIf arg =>
    rcases arg with _ | (n | _ | _)
    · cases hv
    · rw [exec_jmpIf_u64]
      exact State.withPop_answers fun c s1 => withCondition_answers fun taken => ⟨_, rfl⟩
    · cases hv
    · cases hv
  | jmpO arg =>
    cases arg with
    | none =>
      rw [exec_jmpO_none]
      exact State.withPop_answers fun v s1 => withTarget_answers fun n => ⟨_, rfl⟩
    | some _ => cases hv
  | jmpIfO arg =>
    cases arg with
    | none =>
      rw [exec_jmpIfO_none]
      exact State.withPop_answers fun a s1 => State.withPop_answers fun c s2 =>
        withTarget_answers fun n => withCondition_answers fun taken => ⟨_, rfl⟩
    | some _ => cases hv

theorem exec_answers (i : Instr) (s : State) : ∃ t, exec i s = .next t := by
  cases hv : valid i with
  | true => exact exec_answers_of_valid s hv
  | false => exact ⟨_, exec_of_not_valid s hv⟩

end Sys2Proof.Machine

/-! SUPPORT. The equations of a tick, one per way it can end, the two states of the engine, and how a
property carries over a run. -/

namespace Sys2Proof.Machine

theorem tick_of_fault {s : State} {e : Error} (h : s.fault = some e) :
    tick s = .next (s, .error e) := by
  simp [tick, h]

theorem tick_of_end {s : State} (hn : s.fault = none) (hf : s.fetch = none) :
    tick s = .next (s, .error ⟨.noMoreInstructions, s.pc⟩) := by
  simp [tick, hn, hf]

theorem tick_of_exec {s t : State} {i : Instr} (hn : s.fault = none) (hf : s.fetch = some i)
    (hlt : s.pc.toNat + 1 < 2 ^ 64) (hx : exec i s.advancePc = .next t) :
    tick s = .next (t, resultOfLatch t.fault) := by
  have ha : advanceAndExec i s = .next t := by rw [advanceAndExec, if_pos hlt, hx]
  simp [tick, hn, hf, ha]

/-- The advance of a fetching tick does not wrap within R5's bound (10_state R18). -/
theorem State.ProgFits.pc_lt {s : State} {i : Instr} (hp : s.ProgFits) (hf : s.fetch = some i) :
    s.pc.toNat + 1 < 2 ^ 64 := by
  have := hp.length_lt
  have := State.fetch_in_range hf
  omega

theorem step_answers {s : State} (hp : s.ProgFits) : ∃ t, step s = .next t := by
  suffices h : ∃ t r, tick s = .next (t, r) from h.imp fun _ => step_next.2
  cases hn : s.fault with
  | some e => exact ⟨s, _, tick_of_fault hn⟩
  | none =>
    cases hf : s.fetch with
    | none => exact ⟨s, _, tick_of_end hn hf⟩
    | some i =>
      obtain ⟨t, hx⟩ := exec_answers i s.advancePc
      exact ⟨t, _, tick_of_exec hn hf (hp.pc_lt hf) hx⟩

theorem State.engine_eq_running {s : State} :
    s.engine = .running ↔ s.fault = none ∧ s.pc.toNat < s.prog.length := by
  simp [State.engine]

theorem State.engine_eq_halted {s : State} :
    s.engine = .halted ↔ (∃ e, s.fault = some e) ∨ (s.fault = none ∧ s.fetch = none) := by
  rw [State.fetch_eq_none]
  cases hn : s.fault <;> simp [State.engine, hn]

theorem step_of_halted {s : State} (h : s.engine = .halted) : step s = .next s := by
  rcases State.engine_eq_halted.1 h with ⟨e, hn⟩ | ⟨hn, hf⟩
  · exact step_next.2 ⟨_, tick_of_fault hn⟩
  · exact step_next.2 ⟨_, tick_of_end hn hf⟩

theorem effect_of_running {s t : State} (hrun : s.engine = .running) (h : step s = .next t) :
    ∃ i, s.fetch = some i ∧ s.pc.toNat + 1 < 2 ^ 64 ∧ Effect s.advancePc i t := by
  obtain ⟨hn, hlt⟩ := State.engine_eq_running.1 hrun
  obtain ⟨r, hr⟩ := step_next.1 h
  rcases tick_cases hr with ⟨e, he, -, -⟩ | ⟨-, hf, -, -⟩ | ⟨i, -, hf, hlt, hx, -⟩
  · rw [hn] at he; cases he
  · exact absurd hlt (State.fetch_eq_none.1 hf).not_gt
  · exact ⟨i, hf, hlt, exec_effect hx⟩

/-- A step of a Halted engine leaves the state, one of a Running engine runs the fetched record. -/
theorem step_cases {s t : State} (h : step s = .next t) :
    (s.engine = .halted ∧ t = s) ∨
      ∃ i, s.engine = .running ∧ s.fetch = some i ∧ Effect s.advancePc i t := by
  cases he : s.engine with
  | halted =>
    rw [step_of_halted he] at h
    injection h with h
    exact .inl ⟨rfl, h.symm⟩
  | running =>
    obtain ⟨i, hf, -, hx⟩ := effect_of_running he h
    exact .inr ⟨i, rfl, hf, hx⟩

/-- The step of the machine behind `Host.Core` is `step`. -/
theorem core_step_eq (s : State) : core.step s = step s := rfl

theorem run_succ_of_step {s t : State} (n : Nat) (h : step s = .next t) :
    core.run (n + 1) s = core.run n t := by
  simp only [Host.Core.run, core_step_eq, h]

/-- A run of one step more answers a state only if its first step does. -/
theorem run_succ_eq_next {s t : State} {n : Nat} (h : core.run (n + 1) s = .next t) :
    ∃ u, step s = .next u ∧ core.run n u = .next t := by
  cases hs : step s with
  | next u => exact ⟨u, rfl, run_succ_of_step n hs ▸ h⟩
  | fault r => simp only [Host.Core.run, core_step_eq, hs] at h; cases h
  | refused r => simp only [Host.Core.run, core_step_eq, hs] at h; cases h

/-- What every step keeps, a run of any length keeps. -/
theorem run_induction {P : State → Prop} (hstep : ∀ s t, P s → step s = .next t → P t) (n : Nat) :
    ∀ {s t : State}, P s → core.run n s = .next t → P t := by
  induction n with
  | zero => intro s t hs h; cases h; exact hs
  | succ n ih =>
    intro s t hs h
    obtain ⟨u, hu, hr⟩ := run_succ_eq_next h
    exact ih (hstep s u hs hu) hr

end Sys2Proof.Machine

/-! SUPPORT. What an instruction may do to `pc` and to the stack, read off `Effect` (10_state R18, R19). -/

namespace Sys2Proof.Machine

/-- `pc` is written by a taken jump alone, which leaves the latch (10_state R18, 43_jumps R120). -/
theorem Effect.pc_cases {s t : State} {i : Instr} (h : Effect s i t) :
    t.pc = s.pc ∨ (t.fault = s.fault ∧ IsTakenJump i s.stack t.stack t.pc) := by
  cases h with
  | jmp => exact .inr ⟨rfl, .inl ⟨rfl, rfl⟩⟩
  | @jmpIf n r taken hs =>
    cases taken with
    | true => exact .inr ⟨rfl, .inr (.inl ⟨rfl, hs⟩)⟩
    | false => exact .inl rfl
  | jmpO hs => exact .inr ⟨rfl, .inr (.inr (.inl ⟨rfl, hs⟩))⟩
  | @jmpIfO n r taken hs =>
    cases taken with
    | true => exact .inr ⟨rfl, .inr (.inr (.inr ⟨rfl, hs⟩))⟩
    | false => exact .inl rfl
  | invalid | nop | push | pushFull | underflow | badOperator | operator | operatorFull | jmpIfBad
  | jmpOBad | jmpIfOBad => exact .inl rfl

/-- A record that fails validation touches no operand (40_tick_cycle R84, R85). -/
theorem Effect.stack_of_not_valid {s t : State} {i : Instr} (h : Effect s i t)
    (hv : valid i = false) : t.stack = s.stack := by
  have ht := exec_of_effect h
  rw [exec_of_not_valid s hv] at ht
  cases ht
  rfl

/-- Popping `n` values off `r ++ popped` leaves `r`. -/
theorem take_of_popped {stack r popped : List Value} {n : Nat} (hs : stack = r ++ popped)
    (hn : popped.length = n) : stack.take (stack.length - n) = r := by
  simp [hs, ← hn]

theorem popsOf_of_binary {i : Instr} (hi : i = .add none ∨ i = .sub none) : popsOf i = 2 := by
  rcases hi with rfl | rfl <;> rfl

/-- A valid record cuts off the values it pops, and puts at most one value on what is left. -/
theorem Effect.stack_of_valid {s t : State} {i : Instr} (h : Effect s i t) (hv : valid i = true) :
    t.stack = s.stack.take (s.stack.length - popsOf i) ∨
      ((i.op = .push ∨ i.op = .add ∨ i.op = .sub) ∧
        ∃ v, t.stack = s.stack.take (s.stack.length - popsOf i) ++ [v]) := by
  cases h with
  | invalid hf => rw [hv] at hf; cases hf
  | nop | pushFull | jmp => left; simp [popsOf]
  | push => exact .inr ⟨.inl rfl, _, by simp [popsOf]; rfl⟩
  | underflow _ hlt => left; simp [Nat.sub_eq_zero_of_le hlt.le]
  | badOperator hi hs => left; simp [popsOf_of_binary hi, take_of_popped hs]
  | operatorFull hi hs => left; simp [popsOf_of_binary (hi.imp And.left And.left), take_of_popped hs]
  | @operator i op r lhs rhs v hi hs =>
    have hi := hi.imp And.left And.left
    refine .inr ⟨.inr (hi.imp (congrArg Instr.op) (congrArg Instr.op)), v, ?_⟩
    rw [popsOf_of_binary hi, take_of_popped (n := 2) hs rfl]
  | jmpIf hs | jmpIfBad hs | jmpO hs | jmpOBad hs | jmpIfO hs | jmpIfOBad hs =>
    left
    simp [take_of_popped hs, popsOf]

end Sys2Proof.Machine

/-! SUPPORT. What an instruction does not read: the program store, the heap, and the stack under its
operands (10_state R19, 20_memory R31). -/

namespace Sys2Proof.Machine

theorem jumpIf_replaceStore (taken : Bool) (n : Word) (s : State) (p : List Instr)
    (m : List Host.Cell) :
    jumpIf taken n { s with prog := p, heap := m } =
      { jumpIf taken n s with prog := p, heap := m } := by
  cases taken <;> rfl

theorem jumpIf_raiseStack (taken : Bool) (n : Word) (s : State) (below : List Value) :
    jumpIf taken n { s with stack := below ++ s.stack } =
      { jumpIf taken n s with stack := below ++ (jumpIf taken n s).stack } := by
  cases taken <;> rfl

/-- Steps 3 and 4 neither read nor write the program store and the heap. -/
theorem Effect.replaceStore {s t : State} {i : Instr} (h : Effect s i t) (p : List Instr)
    (m : List Host.Cell) :
    Effect { s with prog := p, heap := m } i { t with prog := p, heap := m } := by
  cases h with
  | invalid hv => exact .invalid hv
  | nop => exact .nop
  | push hr => exact .push hr
  | pushFull hr => exact .pushFull hr
  | underflow hv hlt => exact .underflow hv hlt
  | badOperator hi hs hn => exact .badOperator hi hs hn
  | operator hi hs ho hr => exact .operator hi hs ho hr
  | operatorFull hi hs ho hr => exact .operatorFull hi hs ho hr
  | jmp => exact .jmp
  | jmpIf hs => rw [← jumpIf_replaceStore]; exact .jmpIf hs
  | jmpIfBad hs hk => exact .jmpIfBad hs hk
  | jmpO hs => exact .jmpO hs
  | jmpOBad hs hk => exact .jmpOBad hs hk
  | jmpIfO hs => rw [← jumpIf_replaceStore]; exact .jmpIfO hs
  | jmpIfOBad hs hk => exact .jmpIfOBad hs hk

theorem State.hasRoom_of_unbounded {s : State} (h : s.config.stackCapacity = none) :
    s.hasRoom = true := by
  simp [State.hasRoom, h]

/-- A stack with values under it that ends as before still ends as before. -/
theorem append_under {stack r popped : List Value} (below : List Value) (h : stack = r ++ popped) :
    below ++ stack = (below ++ r) ++ popped := by
  rw [h, List.append_assoc]

/-- Only the underflow sees how deep the stack is, when no capacity bounds it. -/
theorem Effect.raiseStack {s t : State} {i : Instr} (h : Effect s i t) (below : List Value)
    (hc : s.config.stackCapacity = none)
    (hu : ∀ e : Error, t.fault = some e → e.kind ≠ .stackUnderflow) :
    Effect { s with stack := below ++ s.stack } i { t with stack := below ++ t.stack } := by
  have room : ∀ r : List Value, ({ s with stack := r } : State).hasRoom = true :=
    fun r => State.hasRoom_of_unbounded hc
  cases h with
  | invalid hv => exact .invalid hv
  | nop => exact .nop
  | push hr => simpa using Effect.push (room (below ++ s.stack))
  | pushFull hr => rw [room s.stack] at hr; cases hr
  | underflow => exact absurd rfl (hu _ rfl)
  | badOperator hi hs hn => exact .badOperator hi (append_under below hs) hn
  | operator hi hs ho _ =>
    simpa using Effect.operator (s := { s with stack := below ++ s.stack }) hi
      (append_under below hs) ho (room _)
  | @operatorFull _ _ r _ _ _ _ _ _ hr => rw [room r] at hr; cases hr
  | jmp => exact .jmp
  | jmpIf hs => rw [← jumpIf_raiseStack]; exact .jmpIf (append_under below hs)
  | jmpIfBad hs hk => exact .jmpIfBad (append_under below hs) hk
  | jmpO hs => exact .jmpO (append_under below hs)
  | jmpOBad hs hk => exact .jmpOBad (append_under below hs) hk
  | jmpIfO hs => rw [← jumpIf_raiseStack]; exact .jmpIfO (append_under below hs)
  | jmpIfOBad hs hk => exact .jmpIfOBad (append_under below hs) hk

end Sys2Proof.Machine

/-! SUPPORT. The statements on the state: what every step answers, what an instruction leaves as it was,
what it does not read, and the reset (spec/10_state.md). -/

namespace Sys2Proof.Machine

/-- Settles O22: every shared operation answers when what follows it does, and R5's bound keeps the
advance from wrapping. -/
theorem everyStepAnswersANextState : Obligations.EveryStepAnswersANextState :=
  ⟨exec_answers, fun _ => step_answers⟩

/-- Settles O23, by induction on the number of steps. -/
theorem haltedIsTerminal : Obligations.HaltedIsTerminal := by
  intro n s h
  induction n with
  | zero => rfl
  | succ n ih => rw [run_succ_of_step n (step_of_halted h), ih]

theorem Effect.store_eq {s t : State} {i : Instr} (h : Effect s i t) :
    t.prog = s.prog ∧ t.heap = s.heap ∧ t.config = s.config :=
  ⟨h.prog_eq, h.heap_eq, h.config_eq⟩

/-- Settles O43: the three frame equations of `Effect`. -/
theorem noInstructionWritesProgramOrHeap : Obligations.NoInstructionWritesProgramOrHeap :=
  fun _ _ _ h => (exec_effect h).store_eq

/-- Settles O44: `Effect.pc_cases` leaves the taken jump alone. -/
theorem onlyJumpsWritePc : Obligations.OnlyJumpsWritePc :=
  fun _ _ _ h hpc => ((exec_effect h).pc_cases.resolve_left hpc).2

/-- Settles O45: the invalid and the valid record apart. -/
theorem onlyTheTopOfTheStackChanges : Obligations.OnlyTheTopOfTheStackChanges :=
  fun _ _ _ h => ⟨(exec_effect h).stack_of_not_valid, (exec_effect h).stack_of_valid⟩

/-- Settles O46: the latch of every `Effect`. -/
theorem onlyFatalErrorsAreLatched : Obligations.OnlyFatalErrorsAreLatched :=
  fun _ _ _ h => (exec_effect h).fault_cases

/-- The increment of a fetching step, on natural numbers (10_state R18). -/
theorem State.toNat_pc_add_one {s : State} (h : s.pc.toNat + 1 < 2 ^ 64) :
    (s.pc + 1).toNat = s.pc.toNat + 1 := by
  rw [BitVec.toNat_add]
  exact Nat.mod_eq_of_lt h

/-- Settles O47: a running engine's step is step 2 and an `Effect`, which leaves the advanced `pc` or is
a taken jump. -/
theorem pcChangesInTwoWaysOnly : Obligations.PcChangesInTwoWaysOnly := by
  intro s t _ hrun hs
  obtain ⟨i, hf, hlt, he⟩ := effect_of_running hrun hs
  rcases he.pc_cases with hpc | ⟨hfault, hjump⟩
  · have hnat : t.pc.toNat = s.pc.toNat + 1 := by
      rw [hpc]; exact State.toNat_pc_add_one hlt
    exact .inl ⟨hpc, hnat, hnat ▸ State.fetch_in_range hf⟩
  · exact .inr ⟨hfault.trans (State.engine_eq_running.1 hrun).1, i, hf, hjump⟩

/-- Settles O48: a step leaves the state or is an `Effect` after step 2, and neither writes the three. -/
theorem programIsConstantDuringARun : Obligations.ProgramIsConstantDuringARun := by
  intro n s t h
  refine run_induction (P := fun u => u.prog = s.prog ∧ u.heap = s.heap ∧ u.config = s.config)
    ?_ n ⟨rfl, rfl, rfl⟩ h
  rintro u v ⟨hp, hh, hc⟩ hv
  rcases step_cases hv with ⟨-, rfl⟩ | ⟨i, -, -, he⟩
  · exact ⟨hp, hh, hc⟩
  · exact ⟨he.prog_eq.trans hp, he.heap_eq.trans hh, he.config_eq.trans hc⟩

/-- Settles O49: whichever way the tick ends, the other state's tick ends the same way, a fetched record
with the same `Effect`. -/
theorem tickReadsOnlyTheFetchedRecord : Obligations.TickReadsOnlyTheFetchedRecord := by
  intro s t r p m hp ht
  rcases tick_cases ht with ⟨e, hn, rfl, rfl⟩ | ⟨hn, hf, rfl, rfl⟩ | ⟨i, hn, hf, hlt, hx, rfl⟩
  · exact tick_of_fault hn
  · exact tick_of_end hn (hp.trans hf)
  · exact tick_of_exec hn (hp.trans hf) hlt (exec_of_effect ((exec_effect hx).replaceStore p m))

/-- Settles O50: the effect is the same one over the values put under the stack. -/
theorem stackBelowIsNeverRead : Obligations.StackBelowIsNeverRead :=
  fun _ _ _ below hc h hu => exec_of_effect ((exec_effect h).raiseStack below hc hu)

/-- Settles O51: the fields are those of the reset with the empty Program, where nothing is fetched. -/
theorem stateAfterReset : Obligations.StateAfterReset :=
  ⟨rfl, rfl, rfl, rfl, rfl, rfl, State.engine_eq_halted.2 (.inr ⟨rfl, rfl⟩), tick_of_end rfl rfl⟩

theorem resetCommand_of_admits {s : State} {p : List Instr} (h : admits s.config p = true) :
    resetCommand p s = .next (State.resetTo s.config p, .done) := by
  rw [resetCommand, if_pos h]

/-- After a reset the first record, if there is one, is the next to run (70_reset R170). -/
theorem State.resetTo_engine_eq_running {c : Config} {p : List Instr} :
    (State.resetTo c p).engine = .running ↔ p ≠ [] := by
  simp [State.engine_eq_running, List.length_pos_iff]

/-- Settles O52: an admitted Program is not refused. -/
theorem resetPutsEveryElementAtItsValue : Obligations.ResetPutsEveryElementAtItsValue :=
  fun s p h =>
    ⟨State.resetTo s.config p, resetCommand_of_admits h, rfl, State.resetTo_engine_eq_running⟩

end Sys2Proof.Machine

/-! SUPPORT. The bytes of the wire format (30_encoding R46 to R52), as relations between bytes and
what they stand for, and the reads and decoders as taking exactly such bytes off the front of the stream
(R57 to R59). -/

namespace Sys2Proof

/-- `st'` is what is left of `st` when the bytes `w` have been delivered from its front (R57). -/
structure Stream.Took (st : Stream) (w : List Byte) (st' : Stream) : Prop where
  bytes_eq : st.bytes = w ++ st'.bytes
  off_eq : st'.off = st.off + w.length
  ending_eq : st'.ending = st.ending

/-- The error of a read that meets what follows the last byte (R58, R59). -/
def StreamEnd.readError : StreamEnd → DecodeError
  | .eos => .unexpectedEOF
  | .ioerr text => .fileError text

/-- The encodings of a Value (R49 to R51): a `Bool` true has 255 of them. -/
inductive WireValue : List Byte → Value → Prop
  | u64 (n : Word) : WireValue (Kind.u64.byte :: bytesOfWord n) (.u64 n)
  | pointer (n : Word) : WireValue (Kind.pointer.byte :: bytesOfWord n) (.pointer n)
  | bool (b : Byte) : WireValue [Kind.bool.byte, b] (.bool (b != 0))

/-- The encodings of an instruction record (R46 to R48). -/
inductive WireInstr : List Byte → Instr → Prop
  | bare {op : Opcode} (h : op.arity = 0) : WireInstr [op.byte] (op.record none)
  | withArg {op : Opcode} {w : List Byte} {v : Value} (h : op.arity = 1) (hw : WireValue w v) :
      WireInstr (op.byte :: w) (op.record (some v))

theorem Stream.took_mk (w rest : List Byte) (off : Nat) (e : StreamEnd) :
    (Stream.mk (w ++ rest) off e).Took w ⟨rest, off + w.length, e⟩ :=
  ⟨rfl, rfl, rfl⟩

theorem Stream.took_byte (b : Byte) (rest : List Byte) (off : Nat) (e : StreamEnd) :
    (Stream.mk (b :: rest) off e).Took [b] ⟨rest, off + 1, e⟩ :=
  Stream.took_mk [b] rest off e

theorem Stream.Took.eq_mk {st st' : Stream} {w rest : List Byte} (h : st.Took w st')
    (hb : st.bytes = w ++ rest) : st' = ⟨rest, st.off + w.length, st.ending⟩ := by
  obtain ⟨bytes', off', e'⟩ := st'
  obtain ⟨hbytes, rfl, rfl⟩ := h
  rw [List.append_cancel_left (hb.symm.trans hbytes)]

theorem Stream.took_append {st st' : Stream} {u w : List Byte} :
    st.Took (u ++ w) st' ↔ ∃ st1, st.Took u st1 ∧ st1.Took w st' := by
  constructor
  · rintro ⟨hb, ho, he⟩
    exact ⟨⟨w ++ st'.bytes, st.off + u.length, st.ending⟩, ⟨by simp [hb], rfl, rfl⟩,
      ⟨rfl, by simp [ho, Nat.add_assoc], he⟩⟩
  · rintro ⟨st1, ⟨hb1, ho1, he1⟩, ⟨hb2, ho2, he2⟩⟩
    exact ⟨by simp [hb1, hb2], by simp [ho1, ho2, Nat.add_assoc], he2.trans he1⟩

theorem Stream.took_cons {st st' : Stream} {b : Byte} {w : List Byte} :
    st.Took (b :: w) st' ↔ ∃ st1, st.Took [b] st1 ∧ st1.Took w st' :=
  Stream.took_append (u := [b])

/-! The two reads. -/

@[simp] theorem length_bytesOfWord (n : Word) : (bytesOfWord n).length = 8 := rfl

theorem bytesOfWord_le64 (b0 b1 b2 b3 b4 b5 b6 b7 : Byte) :
    bytesOfWord (le64 b0 b1 b2 b3 b4 b5 b6 b7) = [b0, b1, b2, b3, b4, b5, b6, b7] := by
  simp only [bytesOfWord, le64, List.cons.injEq, and_true]
  refine ⟨?_, ?_, ?_, ?_, ?_, ?_, ?_, ?_⟩
  all_goals
    apply BitVec.eq_of_getLsbD_eq
    intro i hi
    simp only [BitVec.getLsbD_append, BitVec.getLsbD_extractLsb']
    grind

theorem Stream.readOne_eq_got {st st' : Stream} {b : Byte} :
    st.readOne = .got b st' ↔ st.Took [b] st' := by
  obtain ⟨bytes, off, e⟩ := st
  constructor
  · intro h
    cases bytes with
    | nil => cases e <;> simp [Stream.readOne, Stream.short] at h
    | cons b' rest =>
      rw [readOne_cons] at h
      cases h
      exact Stream.took_byte b rest off e
  · intro h
    have hb : bytes = b :: st'.bytes := h.bytes_eq
    rw [hb, readOne_cons, h.eq_mk hb]
    rfl

/-- Eight bytes are there or they are not (R57). -/
theorem eight_bytes_or_short (bytes : List Byte) :
    (∃ n rest, bytes = bytesOfWord n ++ rest) ∨ bytes.length < 8 := by
  match bytes with
  | b0 :: b1 :: b2 :: b3 :: b4 :: b5 :: b6 :: b7 :: rest =>
    exact .inl ⟨le64 b0 b1 b2 b3 b4 b5 b6 b7, rest, by rw [bytesOfWord_le64]; rfl⟩
  | [] | [_] | [_, _] | [_, _, _] | [_, _, _, _] | [_, _, _, _, _] | [_, _, _, _, _, _]
  | [_, _, _, _, _, _, _] => exact .inr (by simp)

theorem Stream.readEight_of_short {st : Stream} (h : st.bytes.length < 8) :
    st.readEight = st.short := by
  unfold Stream.readEight
  split
  · next hb =>
    simp only [hb, List.length_cons] at h
    omega
  · rfl

theorem Stream.readEight_eq_got {st st' : Stream} {n : Word} :
    st.readEight = .got n st' ↔ st.Took (bytesOfWord n) st' := by
  obtain ⟨bytes, off, e⟩ := st
  constructor
  · intro h
    rcases eight_bytes_or_short bytes with ⟨m, rest, rfl⟩ | hlt
    · rw [readEight_bytesOfWord] at h
      cases h
      exact Stream.took_mk (bytesOfWord n) rest off e
    · rw [Stream.readEight_of_short hlt] at h
      cases e <;> simp [Stream.short] at h
  · intro h
    have hb : bytes = bytesOfWord n ++ st'.bytes := h.bytes_eq
    rw [hb, readEight_bytesOfWord, h.eq_mk hb]
    rfl

/-! What the decoders answer. -/

theorem decodeValue_of_wire {st st' : Stream} {w : List Byte} {v : Value} (hw : WireValue w v)
    (h : st.Took w st') : decodeValue st = .ok (v, st') := by
  cases hw with
  | u64 n | pointer n =>
    obtain ⟨st1, hk, hn⟩ := Stream.took_cons.1 h
    simp [decodeValue, Stream.readOne_eq_got.2 hk, Stream.readEight_eq_got.2 hn]
  | bool b =>
    obtain ⟨st1, hk, hb⟩ := Stream.took_cons.1 h
    simp [decodeValue, Stream.readOne_eq_got.2 hk, Stream.readOne_eq_got.2 hb]

theorem wire_of_decodeValue {st st' : Stream} {v : Value} (h : decodeValue st = .ok (v, st')) :
    ∃ w, WireValue w v ∧ st.Took w st' := by
  cases hr : st.readOne with
  | eos | ioerr => simp [decodeValue, hr] at h
  | got k st1 =>
    cases hk : kindOfByte k with
    | none => simp [decodeValue, hr, hk] at h
    | some kind =>
      have hkind := Stream.readOne_eq_got.1 (kindOfByte_eq_some hk ▸ hr)
      cases kind with
      | u64 | pointer =>
        cases hp : st1.readEight with
        | eos | ioerr => simp [decodeValue, hr, hk, hp] at h
        | got n st2 =>
          simp only [decodeValue, hr, hk, hp] at h
          cases h
          refine ⟨_, ?_, Stream.took_cons.2 ⟨st1, hkind, Stream.readEight_eq_got.1 hp⟩⟩
          constructor
      | bool =>
        cases hp : st1.readOne with
        | eos | ioerr => simp [decodeValue, hr, hk, hp] at h
        | got b st2 =>
          simp only [decodeValue, hr, hk, hp] at h
          cases h
          exact ⟨_, .bool b, Stream.took_cons.2 ⟨st1, hkind, Stream.readOne_eq_got.1 hp⟩⟩

theorem decodeValue_eq_ok {st st' : Stream} {v : Value} :
    decodeValue st = .ok (v, st') ↔ ∃ w, WireValue w v ∧ st.Took w st' :=
  ⟨wire_of_decodeValue, fun ⟨_, hw, h⟩ => decodeValue_of_wire hw h⟩

theorem Opcode.arity_cases (op : Opcode) : op.arity = 0 ∨ op.arity = 1 := by
  cases op <;> decide

theorem decodeArgument_of_arity_zero {op : Opcode} (h : op.arity = 0) (st : Stream) :
    decodeArgument op st = .ok (op.record none, st) := by
  simp [decodeArgument, h]

theorem decodeArgument_of_arity_one {op : Opcode} (h : op.arity = 1) (st : Stream) :
    decodeArgument op st = (decodeValue st).map fun r => (op.record (some r.1), r.2) := by
  cases hv : decodeValue st <;> simp [decodeArgument, h, hv, Except.map]

theorem decodeInstruction_of_opcode {st st1 : Stream} {op : Opcode} (h : st.Took [op.byte] st1) :
    decodeInstruction st = decodeArgument op st1 := by
  simp [decodeInstruction, Stream.readOne_eq_got.2 h]

theorem decodeInstruction_of_wire {st st' : Stream} {w : List Byte} {i : Instr} (hw : WireInstr w i)
    (h : st.Took w st') : decodeInstruction st = .ok (i, st') := by
  cases hw with
  | bare ha => rw [decodeInstruction_of_opcode h, decodeArgument_of_arity_zero ha]
  | withArg ha hv =>
    obtain ⟨st1, hop, hval⟩ := Stream.took_cons.1 h
    rw [decodeInstruction_of_opcode hop, decodeArgument_of_arity_one ha,
      decodeValue_of_wire hv hval]
    rfl

/-- A record comes from an opcode byte and what follows it. -/
theorem opcode_of_decodeInstruction {st st' : Stream} {i : Instr}
    (h : decodeInstruction st = .ok (i, st')) :
    ∃ op st1, st.Took [op.byte] st1 ∧ decodeArgument op st1 = .ok (i, st') := by
  cases hr : st.readOne with
  | eos | ioerr => simp [decodeInstruction, hr] at h
  | got b st1 =>
    cases ho : opcodeOfByte b with
    | none => simp [decodeInstruction, hr, ho] at h
    | some op =>
      simp only [decodeInstruction, hr, ho] at h
      exact ⟨op, st1, Stream.readOne_eq_got.1 (opcodeOfByte_eq_some ho ▸ hr), h⟩

theorem wire_of_decodeInstruction {st st' : Stream} {i : Instr}
    (h : decodeInstruction st = .ok (i, st')) : ∃ w, WireInstr w i ∧ st.Took w st' := by
  obtain ⟨op, st1, hop, ha⟩ := opcode_of_decodeInstruction h
  rcases op.arity_cases with h0 | h1
  · rw [decodeArgument_of_arity_zero h0] at ha
    cases ha
    exact ⟨_, .bare h0, hop⟩
  · rw [decodeArgument_of_arity_one h1] at ha
    cases hv : decodeValue st1 with
    | error e => rw [hv] at ha; cases ha
    | ok r =>
      rw [hv] at ha
      cases ha
      obtain ⟨w, hw, ht⟩ := decodeValue_eq_ok.1 hv
      exact ⟨_, .withArg h1 hw, Stream.took_cons.2 ⟨st1, hop, ht⟩⟩

theorem decodeInstruction_eq_ok {st st' : Stream} {i : Instr} :
    decodeInstruction st = .ok (i, st') ↔ ∃ w, WireInstr w i ∧ st.Took w st' :=
  ⟨wire_of_decodeInstruction, fun ⟨_, hw, h⟩ => decodeInstruction_of_wire hw h⟩

end Sys2Proof

/-! SUPPORT. The encoder (30_encoding R64, R65): the records it takes, and its bytes among the
encodings. -/

namespace Sys2Proof

@[simp] theorem Opcode.record_op (op : Opcode) (arg : Option Value) : (op.record arg).op = op := by
  cases op <;> rfl

@[simp] theorem Opcode.record_arg (op : Opcode) (arg : Option Value) :
    (op.record arg).arg = arg := by
  cases op <;> rfl

theorem recordForm (i : Instr) : Laws.RecordForm.Statement i := by
  cases i with
  | nop arg => exact Laws.RecordForm.nop arg
  | push arg => exact Laws.RecordForm.push arg
  | add arg => exact Laws.RecordForm.add arg
  | sub arg => exact Laws.RecordForm.sub arg
  | jmp arg => exact Laws.RecordForm.jmp arg
  | jmpIf arg => exact Laws.RecordForm.jmpIf arg
  | jmpO arg => exact Laws.RecordForm.jmpO arg
  | jmpIfO arg => exact Laws.RecordForm.jmpIfO arg

theorem Instr.eq_record (i : Instr) : i = i.op.record i.arg := (recordForm i).1.symm

/-- A record in the encoder's domain is an opcode of arity 0 alone, or one of arity 1 with a Value
(R65). -/
theorem Instr.wellFormed_iff {i : Instr} : i.wellFormed = true ↔
    (∃ op : Opcode, op.arity = 0 ∧ i = op.record none) ∨
      ∃ (op : Opcode) (v : Value), op.arity = 1 ∧ i = op.record (some v) := by
  constructor
  · intro h
    rw [(recordForm i).2] at h
    cases ha : i.arg with
    | none =>
      refine .inl ⟨i.op, i.op.arity_cases.resolve_right ?_, ha ▸ i.eq_record⟩
      simpa [ha] using h
    | some v => exact .inr ⟨i.op, v, by simpa [ha] using h, ha ▸ i.eq_record⟩
  · rintro (⟨op, h, rfl⟩ | ⟨op, v, h, rfl⟩) <;> simp [(recordForm _).2, h]

theorem encode_record_none {op : Opcode} (h : op.arity = 0) :
    encode (op.record none) = .ok [op.byte] := by
  simp [encode, encodeArgument, h]

theorem encode_record_some {op : Opcode} (h : op.arity = 1) (v : Value) :
    encode (op.record (some v)) = .ok (op.byte :: encodeValue v) := by
  simp [encode, encodeArgument, h]

theorem encode_of_not_wellFormed {i : Instr} (h : i.wellFormed = false) :
    encode i = .error .refusedRecord := by
  rw [(recordForm i).2] at h
  rcases i.op.arity_cases with h0 | h1
  · cases ha : i.arg with
    | none => simp [ha, h0] at h
    | some v => simp [encode, encodeArgument, ha, h0]
  · cases ha : i.arg with
    | none => simp [encode, encodeArgument, ha, h1]
    | some v => simp [ha, h1] at h

theorem wellFormed_of_encode {i : Instr} {bytes : List Byte} (h : encode i = .ok bytes) :
    i.wellFormed = true := by
  cases hw : i.wellFormed with
  | true => rfl
  | false => rw [encode_of_not_wellFormed hw] at h; cases h

theorem wireValue_encodeValue (v : Value) : WireValue (encodeValue v) v := by
  cases v with
  | u64 n => exact .u64 n
  | pointer n => exact .pointer n
  | bool b =>
    cases b with
    | true => exact .bool 1
    | false => exact .bool 0

/-- What the encoder writes is one of the record's encodings (R46, R65). -/
theorem wireInstr_of_encode {i : Instr} {bytes : List Byte} (h : encode i = .ok bytes) :
    WireInstr bytes i := by
  rcases Instr.wellFormed_iff.1 (wellFormed_of_encode h) with ⟨op, ha, rfl⟩ | ⟨op, v, ha, rfl⟩
  · rw [encode_record_none ha] at h
    cases h
    exact .bare ha
  · rw [encode_record_some ha] at h
    cases h
    exact .withArg ha (wireValue_encodeValue v)

/-- Settles O1: the encoder's bytes are an encoding of the record, and the decoder takes them off. -/
theorem decodeOfEncodeIsTheRecord : Obligations.DecodeOfEncodeIsTheRecord :=
  fun _ bytes rest off e h =>
    decodeInstruction_of_wire (wireInstr_of_encode h) (Stream.took_mk bytes rest off e)

theorem WireValue.length_cases {w : List Byte} {v : Value} (h : WireValue w v) :
    (w.length = 2 ∧ v.kind = .bool) ∨ (w.length = 9 ∧ (v.kind = .u64 ∨ v.kind = .pointer)) := by
  cases h with
  | u64 n => exact .inr ⟨rfl, .inl rfl⟩
  | pointer n => exact .inr ⟨rfl, .inr rfl⟩
  | bool b => exact .inl ⟨rfl, rfl⟩

/-- Settles O3: the two forms of a well-formed record, the second with the lengths of a Value. -/
theorem encoderDomainAndLengths : Obligations.EncoderDomainAndLengths := by
  refine fun i => ⟨fun h => ?_, encode_of_not_wellFormed⟩
  rcases Instr.wellFormed_iff.1 h with ⟨op, ha, rfl⟩ | ⟨op, v, ha, rfl⟩
  · exact ⟨[], by simpa using encode_record_none ha, .inl ⟨rfl, by simp⟩⟩
  · refine ⟨encodeValue v, by simpa using encode_record_some ha v, .inr ?_⟩
    simpa using (wireValue_encodeValue v).length_cases

theorem WireInstr.wellFormed {w : List Byte} {i : Instr} (h : WireInstr w i) :
    i.wellFormed = true := by
  cases h with
  | bare ha => exact Instr.wellFormed_iff.2 (.inl ⟨_, ha, rfl⟩)
  | withArg ha _ => exact Instr.wellFormed_iff.2 (.inr ⟨_, _, ha, rfl⟩)

theorem WireInstr.length_cases {w : List Byte} {i : Instr} (h : WireInstr w i) :
    w.length = 1 ∨ w.length = 3 ∨ w.length = 10 := by
  cases h with
  | bare => exact .inl rfl
  | withArg _ hw =>
    rcases hw.length_cases with ⟨hl, -⟩ | ⟨hl, -⟩
    · exact .inr (.inl (by simp [hl]))
    · exact .inr (.inr (by simp [hl]))

theorem Stream.Took.eq_drop {st st' : Stream} {w : List Byte} (h : st.Took w st') :
    st' = ⟨st.bytes.drop w.length, st.off + w.length, st.ending⟩ :=
  h.eq_mk (by simp [h.bytes_eq])

theorem Stream.Took.take_eq {st st' : Stream} {w : List Byte} (h : st.Took w st') :
    st.bytes.take w.length = w := by
  simp [h.bytes_eq]

/-- Settles O10: what was taken off is an encoding of the record. -/
theorem decodeConsumesOneInstruction : Obligations.DecodeConsumesOneInstruction := by
  intro st st' i h
  obtain ⟨w, hw, ht⟩ := decodeInstruction_eq_ok.1 h
  exact ⟨hw.wellFormed, w.length, hw.length_cases, by simp [ht.bytes_eq], ht.eq_drop⟩

theorem encodeValue_bool_eq_iff (b : Byte) :
    encodeValue (.bool (b != 0)) = [2, b] ↔ b = 0 ∨ b = 1 := by
  revert b
  decide

/-- Of all encodings of a record, only one of a `Bool` may differ from the encoder's (R67). -/
theorem WireInstr.encode_eq_iff {w : List Byte} {i : Instr} (h : WireInstr w i) :
    encode i = .ok w ↔ ∀ b, w = [i.op.byte, 2, b] → b = 0 ∨ b = 1 := by
  cases h with
  | bare ha => simp [encode_record_none ha]
  | @withArg op w v ha hw =>
    rw [encode_record_some ha]
    cases hw with
    | u64 n | pointer n => simp [encodeValue, bytesOfWord]
    | bool b =>
      simp only [Except.ok.injEq, List.cons.injEq, true_and, encodeValue_bool_eq_iff,
        Opcode.record_op, Kind.byte, and_true, forall_eq']

/-- Settles O12: the encoding taken off the stream is the one whose equality with the encoder's is
characterised. -/
theorem reencodingRestoresCanonicalBytes : Obligations.ReencodingRestoresCanonicalBytes := by
  intro st st' i n h hn
  obtain ⟨w, hw, ht⟩ := decodeInstruction_eq_ok.1 h
  obtain rfl : n = w.length := Nat.add_left_cancel (hn.symm.trans ht.off_eq)
  rw [ht.take_eq]
  exact hw.encode_eq_iff

end Sys2Proof

/-! SUPPORT. Bytes the decoder rejects: unknown opcodes and kinds, and an instruction the stream does
not hold to its end (30_encoding R53, R54, R57 to R59). -/

namespace Sys2Proof

theorem append_byte_toNat {n : Nat} (hi : BitVec n) (lo : Byte) :
    (hi ++ lo).toNat = lo.toNat + 256 * hi.toNat := by
  have := lo.isLt
  rw [BitVec.toNat_append, ← Nat.shiftLeft_add_eq_or_of_lt this, Nat.shiftLeft_eq]
  omega

/-- The assembled word as R50 writes it. -/
theorem le64_toNat (b0 b1 b2 b3 b4 b5 b6 b7 : Byte) :
    (le64 b0 b1 b2 b3 b4 b5 b6 b7).toNat = b0.toNat + 256 * b1.toNat + 256 ^ 2 * b2.toNat +
      256 ^ 3 * b3.toNat + 256 ^ 4 * b4.toNat + 256 ^ 5 * b5.toNat + 256 ^ 6 * b6.toNat +
      256 ^ 7 * b7.toNat := by
  simp only [le64, append_byte_toNat]
  omega

/-- Settles O7: the eight bytes are those of the word they assemble to. -/
theorem integerPayloadIsLittleEndian : Obligations.IntegerPayloadIsLittleEndian := by
  intro b0 b1 b2 b3 b4 b5 b6 b7 rest off e
  have hb := bytesOfWord_le64 b0 b1 b2 b3 b4 b5 b6 b7
  refine ⟨le64 b0 b1 b2 b3 b4 b5 b6 b7, le64_toNat b0 b1 b2 b3 b4 b5 b6 b7, ?_, ?_⟩
  · refine decodeValue_of_wire (.u64 _) ?_
    rw [hb]
    exact Stream.took_mk (0 :: [b0, b1, b2, b3, b4, b5, b6, b7]) rest off e
  · refine decodeValue_of_wire (.pointer _) ?_
    rw [hb]
    exact Stream.took_mk (1 :: [b0, b1, b2, b3, b4, b5, b6, b7]) rest off e

theorem byte_ne_zero_eq_decide (b : Byte) : (b != 0) = decide (b.toNat ≠ 0) := by
  revert b
  decide

/-- Settles O6: any payload byte makes an encoding of a `Bool`. -/
theorem boolPayloadByte : Obligations.BoolPayloadByte := by
  intro b rest off e
  rw [← byte_ne_zero_eq_decide]
  exact decodeValue_of_wire (.bool b) (Stream.took_mk [2, b] rest off e)

theorem decodeValue_of_unknown_kind {k : Byte} (rest : List Byte) (off : Nat) (e : StreamEnd)
    (h : 3 ≤ k.toNat) : decodeValue ⟨k :: rest, off, e⟩ = .error (.invalidObject off) := by
  simp [decodeValue, readOne_cons, kindOfByte_eq_none h]

theorem decodeInstruction_of_unknown_opcode {b : Byte} (rest : List Byte) (off : Nat) (e : StreamEnd)
    (h : 8 ≤ b.toNat) : decodeInstruction ⟨b :: rest, off, e⟩ = .error .invalidInstruction := by
  simp [decodeInstruction, readOne_cons, opcodeOfByte_eq_none h]

/-- Settles O5: the kind byte is looked at before any payload is read. -/
theorem unknownKindByteIsRejected : Obligations.UnknownKindByteIsRejected := by
  refine fun k rest off e h => ⟨decodeValue_of_unknown_kind rest off e h, fun op ha => ?_⟩
  rw [decodeInstruction_of_opcode (Stream.took_byte op.byte (k :: rest) off e),
    decodeArgument_of_arity_one ha, decodeValue_of_unknown_kind _ _ _ h]
  rfl

/-! A read that finds too few bytes fails with the error of what follows them. -/

theorem decodeValue_of_nil (off : Nat) (e : StreamEnd) :
    decodeValue ⟨[], off, e⟩ = .error e.readError := by
  cases e <;> rfl

theorem decodeValue_of_short_integer {k : Kind} {bytes : List Byte} (off : Nat) (e : StreamEnd)
    (hk : k ≠ .bool) (h : bytes.length < 8) :
    decodeValue ⟨k.byte :: bytes, off, e⟩ = .error e.readError := by
  have hs : (Stream.mk bytes (off + 1) e).readEight = (Stream.mk bytes (off + 1) e).short :=
    Stream.readEight_of_short h
  cases k with
  | bool => exact absurd rfl hk
  | u64 | pointer =>
    cases e <;> simp [decodeValue, readOne_cons, hs, Stream.short, StreamEnd.readError]

theorem decodeValue_of_short_bool (off : Nat) (e : StreamEnd) :
    decodeValue ⟨[Kind.bool.byte], off, e⟩ = .error e.readError := by
  cases e <;> rfl

theorem WireValue.decodeValue_take {w : List Byte} {v : Value} (hw : WireValue w v) {n : Nat}
    (hn : n < w.length) (off : Nat) (e : StreamEnd) :
    decodeValue ⟨w.take n, off, e⟩ = .error e.readError := by
  cases n with
  | zero => exact decodeValue_of_nil off e
  | succ n =>
    cases hw with
    | u64 m | pointer m =>
      have hlt : n < 8 := Nat.lt_of_succ_lt_succ hn
      exact decodeValue_of_short_integer off e (by decide) (by simpa using hlt)
    | bool b =>
      obtain rfl : n = 0 := by simpa using hn
      exact decodeValue_of_short_bool off e

/-- Of a proper beginning of an encoding, the opcode byte is read and the value is not (R58, R59). -/
theorem WireInstr.decodeInstruction_take {w : List Byte} {i : Instr} (hw : WireInstr w i) {n : Nat}
    (h0 : 0 < n) (hn : n < w.length) (off : Nat) (e : StreamEnd) :
    decodeInstruction ⟨w.take n, off, e⟩ = .error e.readError := by
  obtain ⟨n, rfl⟩ := Nat.exists_eq_add_of_lt h0
  cases hw with
  | bare => simp at hn
  | @withArg op w v ha hv =>
    have hlt : n < w.length := by simpa using hn
    rw [Nat.zero_add, List.take_succ_cons,
      decodeInstruction_of_opcode (Stream.took_byte op.byte (w.take n) off e),
      decodeArgument_of_arity_one ha, hv.decodeValue_take hlt]
    rfl

end Sys2Proof

/-! SUPPORT. What the loop of `decodeProgram` does, as a relation without fuel (30_encoding R60; log
entry 15). -/

namespace Sys2Proof

/-- With the records `p` accumulated, the stream `st` decodes to `r` under the capacity `c` (R60). -/
inductive Decodes (c : Option Nat) :
    List Instr → Stream → Except DecodeError (List Instr) → Prop
  | done (p : List Instr) (off : Nat) : Decodes c p ⟨[], off, .eos⟩ (.ok p)
  | ioError (p : List Instr) (off : Nat) (text : String) :
      Decodes c p ⟨[], off, .ioerr text⟩ (.error (.fileError text))
  | fail {p : List Instr} {st : Stream} {e : DecodeError} (hb : st.bytes ≠ [])
      (h : decodeInstruction st = .error e) : Decodes c p st (.error e)
  | overflow {p : List Instr} {st st' : Stream} {i : Instr}
      (h : decodeInstruction st = .ok (i, st')) (hc : fits c (p.length + 1) = false) :
      Decodes c p st (.error .programOverflow)
  | step {p : List Instr} {st st' : Stream} {i : Instr} {r : Except DecodeError (List Instr)}
      (h : decodeInstruction st = .ok (i, st')) (hc : fits c (p.length + 1) = true)
      (ht : Decodes c (p ++ [i]) st' r) : Decodes c p st r

theorem bytes_lt_of_decodeInstruction {st st' : Stream} {i : Instr}
    (h : decodeInstruction st = .ok (i, st')) : st'.bytes.length < st.bytes.length := by
  obtain ⟨w, hw, ht⟩ := decodeInstruction_eq_ok.1 h
  have hl : st.bytes.length = w.length + st'.bytes.length := by simp [ht.bytes_eq]
  have := hw.length_cases
  omega

/-! The loop's equations, by what the next instruction decodes to. -/

theorem decodeLoop_of_error {c : Option Nat} {p : List Instr} {st : Stream} {e : DecodeError}
    (fuel : Nat) (hb : st.bytes ≠ []) (h : decodeInstruction st = .error e) :
    decodeLoop c fuel p st = .error e := by
  obtain ⟨bytes, off, ending⟩ := st
  obtain ⟨b, rest, rfl⟩ := List.exists_cons_of_ne_nil hb
  cases ho : opcodeOfByte b with
  | none =>
    simp only [decodeInstruction, readOne_cons, ho] at h
    cases h
    simp [decodeLoop.eq_def, readOne_cons, ho]
  | some op =>
    simp only [decodeInstruction, readOne_cons, ho] at h
    simp [decodeLoop.eq_def, readOne_cons, ho, h]

theorem decodeLoop_of_overflow {c : Option Nat} {p : List Instr} {st st' : Stream} {i : Instr}
    (fuel : Nat) (h : decodeInstruction st = .ok (i, st')) (hc : fits c (p.length + 1) = false) :
    decodeLoop c fuel p st = .error .programOverflow := by
  obtain ⟨op, st1, hop, ha⟩ := opcode_of_decodeInstruction h
  simp [decodeLoop.eq_def, Stream.readOne_eq_got.2 hop, ha, hc]

theorem decodeLoop_of_step {c : Option Nat} {p : List Instr} {st st' : Stream} {i : Instr}
    (fuel : Nat) (h : decodeInstruction st = .ok (i, st')) (hc : fits c (p.length + 1) = true) :
    decodeLoop c (fuel + 1) p st = decodeLoop c fuel (p ++ [i]) st' := by
  obtain ⟨op, st1, hop, ha⟩ := opcode_of_decodeInstruction h
  rw [decodeLoop]
  simp [Stream.readOne_eq_got.2 hop, ha, hc]

theorem Decodes.decodeLoop_eq {c : Option Nat} {p : List Instr} {st : Stream}
    {r : Except DecodeError (List Instr)} (h : Decodes c p st r) :
    ∀ {fuel : Nat}, st.bytes.length ≤ fuel → decodeLoop c fuel p st = r := by
  induction h with
  | done | ioError => intro fuel _; rw [decodeLoop.eq_def]; rfl
  | fail hb h => intro fuel _; exact decodeLoop_of_error fuel hb h
  | overflow h hc => intro fuel _; exact decodeLoop_of_overflow fuel h hc
  | step h hc _ ih =>
    intro fuel hf
    have hlt := bytes_lt_of_decodeInstruction h
    obtain ⟨fuel, rfl⟩ : ∃ n, fuel = n + 1 := Nat.exists_eq_add_one.2 (by omega)
    rw [decodeLoop_of_step fuel h hc]
    exact ih (by omega)

/-- Every stream decodes to something: each instruction makes it shorter. -/
theorem exists_decodes (c : Option Nat) (p : List Instr) (st : Stream) : ∃ r, Decodes c p st r := by
  by_cases hb : st.bytes = []
  · obtain ⟨bytes, off, ending⟩ := st
    cases (hb : bytes = [])
    cases ending with
    | eos => exact ⟨_, .done p off⟩
    | ioerr text => exact ⟨_, .ioError p off text⟩
  · cases h : decodeInstruction st with
    | error e => exact ⟨_, .fail hb h⟩
    | ok is =>
      obtain ⟨i, st'⟩ := is
      cases hc : fits c (p.length + 1) with
      | false => exact ⟨_, .overflow h hc⟩
      | true =>
        have hlt := bytes_lt_of_decodeInstruction h
        exact (exists_decodes c (p ++ [i]) st').imp fun _ ht => .step h hc ht
termination_by st.bytes.length

theorem decodeProgram_eq_iff {c : Option Nat} {st : Stream} {r : Except DecodeError (List Instr)} :
    decodeProgram c st = r ↔ Decodes c [] st r := by
  constructor
  · rintro rfl
    obtain ⟨r, h⟩ := exists_decodes c [] st
    rwa [decodeProgram, h.decodeLoop_eq le_rfl]
  · exact fun h => h.decodeLoop_eq le_rfl

/-- Settles O8: the instruction fails to decode, and the program's first instruction is this one. -/
theorem truncatedInstructionFails : Obligations.TruncatedInstructionFails := by
  intro i bytes n off text h h0 hn
  have hi := (wireInstr_of_encode h).decodeInstruction_take h0 hn off
  have hb : bytes.take n ≠ [] := by
    simpa using ⟨h0.ne', List.ne_nil_of_length_pos (h0.trans hn)⟩
  exact ⟨hi .eos, hi (.ioerr text), decodeProgram_eq_iff.2 (.fail hb (hi .eos)),
    decodeProgram_eq_iff.2 (.fail hb (hi (.ioerr text)))⟩

/-! Encoded programs. -/

theorem encodeProgram_cons {i : Instr} {p : List Instr} {bytes : List Byte} :
    encodeProgram (i :: p) = .ok bytes ↔
      ∃ first rest, encode i = .ok first ∧ encodeProgram p = .ok rest ∧ bytes = first ++ rest := by
  cases hi : encode i with
  | error e => simp [encodeProgram, hi]
  | ok first => cases hp : encodeProgram p <;> simp [encodeProgram, hi, hp, eq_comm]

/-- The bytes of a program put its records before what the stream decodes to after them (R60, R65). -/
theorem Decodes.of_encodeProgram {p : List Instr} : ∀ {bytes : List Byte},
    encodeProgram p = .ok bytes → ∀ {q : List Instr} {rest : List Byte} {off : Nat} {e : StreamEnd}
      {r : Except DecodeError (List Instr)},
      Decodes none (q ++ p) ⟨rest, off + bytes.length, e⟩ r →
        Decodes none q ⟨bytes ++ rest, off, e⟩ r := by
  induction p with
  | nil =>
    intro bytes h q rest off e r ht
    cases h
    simpa using ht
  | cons i p ih =>
    intro bytes h q rest off e r ht
    obtain ⟨first, others, hi, hp, rfl⟩ := encodeProgram_cons.1 h
    have hd : decodeInstruction ⟨first ++ (others ++ rest), off, e⟩ =
        .ok (i, ⟨others ++ rest, off + first.length, e⟩) :=
      decodeInstruction_of_wire (wireInstr_of_encode hi) (Stream.took_mk _ _ _ _)
    rw [List.append_assoc]
    exact .step hd rfl (ih hp (by simpa [Nat.add_assoc] using ht))

theorem encodeProgram_of_wellFormed {p : List Instr} (h : programWellFormed p = true) :
    ∃ bytes, encodeProgram p = .ok bytes := by
  induction p with
  | nil => exact ⟨[], rfl⟩
  | cons i p ih =>
    obtain ⟨hi, hp⟩ : i.wellFormed = true ∧ programWellFormed p = true := by
      simpa [programWellFormed] using h
    obtain ⟨first, hf, -⟩ := (encoderDomainAndLengths i).1 hi
    obtain ⟨rest, hr⟩ := ih hp
    exact ⟨_, encodeProgram_cons.2 ⟨_, _, hf, hr, rfl⟩⟩

/-- Settles O2: after the program's bytes the stream is at its end. -/
theorem programRoundTrip : Obligations.ProgramRoundTrip := by
  intro p h
  obtain ⟨bytes, hb⟩ := encodeProgram_of_wellFormed h
  refine ⟨bytes, hb, decodeProgram_eq_iff.2 ?_⟩
  have ht := Decodes.of_encodeProgram hb (q := []) (rest := []) (off := 0) (.done p _)
  simpa [Stream.ofBytes] using ht

/-- Settles O4: after the program's bytes the stream begins with the unknown opcode. -/
theorem unknownOpcodeByteIsRejected : Obligations.UnknownOpcodeByteIsRejected := by
  refine fun b rest h => ⟨fun off e => decodeInstruction_of_unknown_opcode rest off e h, ?_⟩
  intro p bytes e hp
  refine decodeProgram_eq_iff.2 (Decodes.of_encodeProgram hp (.fail (by simp) ?_))
  exact decodeInstruction_of_unknown_opcode rest _ e h

theorem Decodes.length_le {c : Option Nat} {q p : List Instr} {st : Stream}
    {r : Except DecodeError (List Instr)} (h : Decodes c q st r) (hr : r = .ok p) :
    q.length ≤ p.length := by
  induction h with
  | done => cases hr; exact le_rfl
  | ioError | fail | overflow => cases hr
  | step _ _ _ ih => exact le_trans (by simp) (ih hr)

/-- A finite capacity lets through what it has room for (R60). -/
theorem Decodes.bounded {q p : List Instr} {st : Stream} {r : Except DecodeError (List Instr)}
    {capacity : Nat} (h : Decodes none q st r) (hr : r = .ok p) (hq : q.length ≤ capacity) :
    Decodes (some capacity) q st
      (if p.length ≤ capacity then .ok p else .error .programOverflow) := by
  induction h with
  | done => cases hr; rw [if_pos hq]; exact .done _ _
  | ioError | fail | overflow => cases hr
  | @step q st st' i r h _ ht ih =>
    have hlen := ht.length_le hr
    by_cases hroom : q.length + 1 ≤ capacity
    · exact .step h ((fits_some _ _).2 hroom) (ih hr (by simpa using hroom))
    · simp only [List.length_append, List.length_singleton] at hlen
      rw [if_neg (by omega)]
      exact .overflow h (by simpa [fits] using hroom)

/-- Settles O13: the empty accumulator is within any capacity. -/
theorem programCapacityBoundsTheDecoder : Obligations.ProgramCapacityBoundsTheDecoder :=
  fun _ _ capacity h =>
    decodeProgram_eq_iff.2 ((decodeProgram_eq_iff.1 h).bounded rfl (Nat.zero_le capacity))

end Sys2Proof

/-! SUPPORT. The decoder as a state machine (30_encoding R61) against the decoder as functions. -/

namespace Sys2Proof

/-- `d'` is some number of transitions after `d`. -/
def DecoderState.Reaches (c : Option Nat) (d d' : DecoderState) : Prop :=
  ∃ k, d.run c k = d'

/-- The state an appended record or a decoder's error leads to (R61). -/
def DecoderState.afterInstr (c : Option Nat) (p : List Instr) :
    Except DecodeError (Instr × Stream) → DecoderState
  | .error e => .err e
  | .ok (i, st) => DecoderState.append c p i st

/-- The final state that answers `r` (R61). -/
def DecoderState.final : Except DecodeError (List Instr) → DecoderState
  | .ok p => .done p
  | .error e => .err e

namespace DecoderState

theorem run_add (c : Option Nat) (a b : Nat) (d : DecoderState) :
    d.run c (a + b) = (d.run c a).run c b := by
  induction a generalizing d with
  | zero => rw [Nat.zero_add]; rfl
  | succ a ih => rw [Nat.succ_add]; exact ih (d.next c)

theorem Reaches.trans {c : Option Nat} {d d' d'' : DecoderState} (h : Reaches c d d')
    (h' : Reaches c d' d'') : Reaches c d d'' := by
  obtain ⟨a, rfl⟩ := h
  obtain ⟨b, rfl⟩ := h'
  exact ⟨a + b, run_add c a b d⟩

/-- A transition and what follows it. -/
theorem Reaches.head {c : Option Nat} {d d' : DecoderState} (h : Reaches c (d.next c) d') :
    Reaches c d d' :=
  Reaches.trans ⟨1, rfl⟩ h

theorem Reaches.of_next {c : Option Nat} {d d' : DecoderState} (h : d.next c = d') :
    Reaches c d d' :=
  ⟨1, h⟩

theorem run_final (c : Option Nat) (k : Nat) (r : Except DecodeError (List Instr)) :
    (final r).run c k = final r := by
  induction k with
  | zero => rfl
  | succ k ih =>
    have hn : (final r).next c = final r := by cases r <;> rfl
    rw [run, hn, ih]

theorem result_final (r : Except DecodeError (List Instr)) : (final r).result = some r := by
  cases r <;> rfl

/-- From `KIND` the machine reads the Value the record takes (R58, R61). -/
theorem reaches_of_kind (c : Option Nat) {op : Opcode} (h1 : op.arity = 1) (p : List Instr)
    (st : Stream) : Reaches c (.kind op p st) (afterInstr c p (decodeArgument op st)) := by
  rw [decodeArgument_of_arity_one h1]
  cases hr : st.readOne with
  | eos | ioerr => exact .of_next (by simp [next, hr, decodeValue, Except.map, afterInstr])
  | got k st1 =>
    cases hk : kindOfByte k with
    | none => exact .of_next (by simp [next, hr, hk, decodeValue, Except.map, afterInstr])
    | some kind =>
      refine .head (.of_next ?_)
      cases kind with
      | u64 | pointer =>
        cases hp : st1.readEight <;> simp [next, hr, hk, hp, decodeValue, Except.map, afterInstr]
      | bool =>
        cases hp : st1.readOne <;> simp [next, hr, hk, hp, decodeValue, Except.map, afterInstr]

/-- From `OPC`, with a byte to read, the machine reads one instruction (R59, R61). -/
theorem reaches_of_opc (c : Option Nat) (p : List Instr) {st : Stream} (hb : st.bytes ≠ []) :
    Reaches c (.opc p st) (afterInstr c p (decodeInstruction st)) := by
  obtain ⟨bytes, off, e⟩ := st
  obtain ⟨b, rest, rfl⟩ := List.exists_cons_of_ne_nil hb
  cases ho : opcodeOfByte b with
  | none => exact .of_next (by simp [next, readOne_cons, ho, decodeInstruction, afterInstr])
  | some op =>
    obtain rfl := opcodeOfByte_eq_some ho
    rw [decodeInstruction_of_opcode (Stream.took_byte op.byte rest off e)]
    rcases op.arity_cases with h0 | h1
    · rw [decodeArgument_of_arity_zero h0]
      exact .of_next (by simp [next, readOne_cons, h0, afterInstr])
    · have hn : next c (.opc p ⟨op.byte :: rest, off, e⟩) = .kind op p ⟨rest, off + 1, e⟩ := by
        simp [next, readOne_cons, h1]
      exact .head (hn ▸ reaches_of_kind c h1 p _)

theorem reaches_of_decodes {c : Option Nat} {p : List Instr} {st : Stream}
    {r : Except DecodeError (List Instr)} (h : Decodes c p st r) :
    Reaches c (.opc p st) (final r) := by
  induction h with
  | done | ioError => exact .of_next rfl
  | @fail p st e hb h =>
    have hi := reaches_of_opc c p hb
    rwa [h] at hi
  | @overflow p st st' i h hc =>
    have hi := reaches_of_opc c p (List.ne_nil_of_length_pos (bytes_lt_of_decodeInstruction h).pos)
    rw [h] at hi
    simpa [afterInstr, append, hc, final] using hi
  | @step p st st' i r h hc _ ih =>
    have hi := reaches_of_opc c p (List.ne_nil_of_length_pos (bytes_lt_of_decodeInstruction h).pos)
    rw [h] at hi
    exact hi.trans (by simpa [afterInstr, append, hc] using ih)

end DecoderState

/-- Settles O11: the machine follows the loop to its answer, in a final state. -/
theorem stateMachineDecodesAsTheFunction : Obligations.StateMachineDecodesAsTheFunction := by
  intro c st
  have hd : Decodes c [] st (decodeProgram c st) := decodeProgram_eq_iff.1 rfl
  obtain ⟨k, hk⟩ := DecoderState.reaches_of_decodes hd
  refine ⟨k, ?_, fun k' hle => ?_⟩
  · rw [DecoderState.start, hk, DecoderState.result_final]
  · obtain ⟨n, rfl⟩ := Nat.exists_eq_add_of_le hle
    rw [DecoderState.start, DecoderState.run_add, hk, DecoderState.run_final]

end Sys2Proof

/-! SUPPORT. The host's commands on streams: the writer and the load (30_encoding R63 to R65, R68;
70_reset R173, R175), and the words of table D. -/

namespace Sys2Proof

/-- Settles O9, by evaluating the decoder on each word. -/
theorem decodedWordsOfTheTable : Obligations.DecodedWordsOfTheTable := by
  unfold Obligations.DecodedWordsOfTheTable
  decide

theorem encodeProgram_of_not_wellFormed {p : List Instr} (h : programWellFormed p = false) :
    encodeProgram p = .error .refusedRecord := by
  induction p with
  | nil => cases h
  | cons i p ih =>
    cases hi : i.wellFormed with
    | false => simp [encodeProgram, encode_of_not_wellFormed hi]
    | true =>
      obtain ⟨first, hf, -⟩ := (encoderDomainAndLengths i).1 hi
      have hp : encodeProgram p = .error .refusedRecord :=
        ih (by simpa [programWellFormed, hi] using h)
      simp [encodeProgram, hf, hp]

theorem writeProgram_of_encoded {p : List Instr} {bytes : List Byte}
    (h : encodeProgram p = .ok bytes) (k : Sink) : writeProgram p k = k.write bytes := by
  simp [writeProgram, h]

theorem Sink.write_of_room {bytes : List Byte} {k : Sink} (h : fits k.room bytes.length = true) :
    k.write bytes =
      .ok ⟨k.written ++ bytes, k.room.map (fun r => r - bytes.length), k.ending⟩ := by
  simp [Sink.write, h]

/-- Settles O14: the encoded bytes are written at once, and a refused record leaves nothing to write. -/
theorem writerAppendsTheEncoding : Obligations.WriterAppendsTheEncoding := by
  constructor
  · intro p bytes k h
    rw [writeProgram_of_encoded h]
    refine ⟨fun hroom => ⟨_, Sink.write_of_room hroom, rfl⟩, ?_, ?_⟩
    · intro hroom hend
      simp [Sink.write, hroom, hend]
    · intro text hroom hend
      simp [Sink.write, hroom, hend]
  · intro p k h
    simp [writeProgram, encodeProgram_of_not_wellFormed h]

namespace Machine

/-- Settles O53: the two outcomes of the decode. -/
theorem loadDecodesThenResets : Obligations.LoadDecodesThenResets := by
  refine ⟨fun s stream p h ha => ?_, fun s stream e h => ?_⟩
  · rw [command, loadCommand, h]
    exact resetCommand_of_admits ha
  · rw [command, loadCommand, h]

theorem admits_nil (c : Config) : admits c [] = true := by
  simp [admits, fits_zero]

/-- Settles O54: the empty stream decodes to the empty Program, which is admitted and has no record to
fetch. -/
theorem emptyStreamLoadsTheEmptyProgram : Obligations.EmptyStreamLoadsTheEmptyProgram :=
  fun s =>
    ⟨loadDecodesThenResets.1 s _ [] (decodeProgram_eq_iff.2 (.done [] 0)) (admits_nil s.config),
      tick_of_end rfl rfl⟩

end Machine

end Sys2Proof

/-! SUPPORT. Reading back the written form (30_encoding R70): each reader takes
what its writer wrote and leaves the text after it. -/

namespace Sys2Proof.Machine

@[simp] theorem eat_append (beginning text : List Char) :
    eat beginning (beginning ++ text) = some text := by
  induction beginning with
  | nil => rfl
  | cons a beginning ih => simp [eat, ih]

/-! Decimal numbers. -/

theorem digitValue_ten_of_isDigit {c : Char} (h : c.isDigit = true) :
    digitValue 10 c = some (c.toNat - '0'.toNat) := by
  have hc : '0' ≤ c ∧ c ≤ '9' := by
    simp only [Char.isDigit, Bool.and_eq_true, decide_eq_true_eq] at h
    exact h
  rw [digitValue, if_pos hc]

theorem readDigits_cons_of_isDigit {c : Char} (h : c.isDigit = true) (acc : Option Nat)
    (text : List Char) :
    readDigits 10 acc (c :: text) =
      readDigits 10 (some (acc.getD 0 * 10 + (c.toNat - '0'.toNat))) text := by
  rw [readDigits, digitValue_ten_of_isDigit h]

theorem readDigits_digits (rest : List Char) {ds : List Char} (hd : ∀ c ∈ ds, c.isDigit = true)
    (acc : Nat) :
    readDigits 10 (some acc) (ds ++ ')' :: rest) =
      some (Nat.ofDigitChars 10 ds acc, ')' :: rest) := by
  induction ds generalizing acc with
  | nil => rfl
  | cons c ds ih =>
    obtain ⟨hc, hds⟩ := List.forall_mem_cons.1 hd
    rw [List.cons_append, readDigits_cons_of_isDigit hc, ih hds, Nat.ofDigitChars_cons,
      Option.getD_some, Nat.mul_comm]

theorem isDigit_of_mem_toDigits_ten (n : Nat) : ∀ c ∈ Nat.toDigits 10 n, c.isDigit = true :=
  fun _ => Nat.isDigit_of_mem_toDigits (by decide) le_rfl

theorem readDigits_toDigits (n : Nat) (rest : List Char) :
    readDigits 10 none (Nat.toDigits 10 n ++ ')' :: rest) = some (n, ')' :: rest) := by
  have hd := isDigit_of_mem_toDigits_ten n
  have hv : Nat.ofDigitChars 10 (Nat.toDigits 10 n) 0 = n := Nat.ofDigitChars_ten_toDigits
  obtain ⟨c, ds, hc⟩ := List.exists_cons_of_ne_nil (Nat.toDigits_ne_nil (n := n) (b := 10))
  rw [hc] at hd hv ⊢
  have hfirst := hd c List.mem_cons_self
  calc readDigits 10 none (c :: ds ++ ')' :: rest)
      = readDigits 10 (some 0) (c :: ds ++ ')' :: rest) := by
        rw [List.cons_append, readDigits_cons_of_isDigit hfirst, readDigits_cons_of_isDigit hfirst]
        rfl
    _ = some (n, ')' :: rest) := by rw [readDigits_digits rest hd, hv]

/-- Digits and a closing parenthesis do not begin with `0x`. -/
theorem eat_0x_digits (rest : List Char) {ds : List Char} (hd : ∀ c ∈ ds, c.isDigit = true) :
    eat "0x".toList (ds ++ ')' :: rest) = none := by
  match ds with
  | [] => rfl
  | [_] => simp [eat]
  | c :: d :: ds =>
    have hx : 'x' ≠ d := by
      rintro rfl
      exact absurd (hd 'x' (by simp)) (by decide)
    simp [eat, hx]

theorem readNumber_toDigits (n : Word) (rest : List Char) :
    readNumber (Nat.toDigits 10 n.toNat ++ ')' :: rest) = some (n, rest) := by
  have hclose : eat [')'] (')' :: rest) = some rest := eat_append [')'] rest
  simp only [readNumber, eat_0x_digits rest (isDigit_of_mem_toDigits_ten n.toNat),
    readDigits_toDigits, if_pos n.isLt, hclose, Option.map_some, BitVec.ofNat_toNat,
    BitVec.setWidth_eq]

/-! Values: each beginning is eaten, and those tried before it are not there. -/

theorem readValue_u64 (text : List Char) :
    readValue ("U64(".toList ++ text) = (readNumber text).map fun r => (.u64 r.1, r.2) := by
  rw [readValue, eat_append]

theorem readValue_pointer (text : List Char) :
    readValue ("Pointer(".toList ++ text) = (readNumber text).map fun r => (.pointer r.1, r.2) := by
  have hu : eat "U64(".toList ("Pointer(".toList ++ text) = none := by simp [eat]
  rw [readValue, hu, eat_append]

theorem writeValue_u64 (n : Word) :
    writeValue (.u64 n) = "U64(".toList ++ Nat.toDigits 10 n.toNat ++ [')'] := rfl

theorem writeValue_pointer (n : Word) :
    writeValue (.pointer n) = "Pointer(".toList ++ Nat.toDigits 10 n.toNat ++ [')'] := rfl

theorem readValue_writeValue (v : Value) (rest : List Char) :
    readValue (writeValue v ++ rest) = some (v, rest) := by
  cases v with
  | u64 n =>
    rw [writeValue_u64, List.append_assoc, List.append_assoc, List.singleton_append, readValue_u64,
      readNumber_toDigits, Option.map_some]
  | pointer n =>
    rw [writeValue_pointer, List.append_assoc, List.append_assoc, List.singleton_append,
      readValue_pointer, readNumber_toDigits, Option.map_some]
  | bool b => cases b <;> rfl

/-! Instructions and programs. -/

theorem readMnemonic_of_arity_zero {op : Opcode} (h : op.arity = 0) (rest : List Char) :
    readMnemonic (mnemonic op ++ rest) = some (op, rest) := by
  cases op with
  | nop | add | sub | jmpO | jmpIfO => rfl
  | push | jmp | jmpIf => cases h

theorem readMnemonic_space (op : Opcode) (rest : List Char) :
    readMnemonic (mnemonic op ++ ' ' :: rest) = some (op, ' ' :: rest) := by
  cases op <;> rfl

theorem readInstr_writeInstr {i : Instr} (h : i.wellFormed = true) (rest : List Char) :
    readInstr (writeInstr i ++ rest) = some (i, rest) := by
  rcases Instr.wellFormed_iff.1 h with ⟨op, h0, rfl⟩ | ⟨op, v, h1, rfl⟩
  · simp [readInstr, writeInstr, readMnemonic_of_arity_zero h0, h0]
  · have hs : eat [' '] (' ' :: (writeValue v ++ rest)) = some (writeValue v ++ rest) :=
      eat_append [' '] _
    simp [readInstr, writeInstr, readMnemonic_space, h1, hs, readValue_writeValue]

theorem three_le_length_writeInstr (i : Instr) : 3 ≤ (writeInstr i).length := by
  have hm : 3 ≤ (mnemonic i.op).length := by cases i.op <;> decide
  cases ha : i.arg with
  | none => simpa [writeInstr, ha] using hm
  | some v =>
    simp only [writeInstr, ha, List.length_append]
    omega

theorem length_lt_length_writeRest (p : List Instr) : p.length < (writeRest p).length := by
  induction p with
  | nil => decide
  | cons i p ih =>
    have := three_le_length_writeInstr i
    simp only [writeRest, List.length_append, List.length_cons]
    omega

theorem readRest_writeRest {p : List Instr} (h : programWellFormed p = true) {fuel : Nat}
    (hf : p.length < fuel) : readRest fuel (writeRest p) = some p := by
  induction p generalizing fuel with
  | nil =>
    obtain ⟨fuel, rfl⟩ := Nat.exists_eq_add_one.2 hf
    simp [readRest, writeRest]
  | cons i p ih =>
    obtain ⟨hi, hp⟩ : i.wellFormed = true ∧ programWellFormed p = true := by
      simpa [programWellFormed] using h
    obtain ⟨fuel, rfl⟩ := Nat.exists_eq_add_one.2 (Nat.zero_lt_of_lt hf)
    have hne : writeRest (i :: p) ≠ [']'] := by simp [writeRest]
    rw [readRest, if_neg hne, writeRest, List.append_assoc, eat_append]
    simp [readInstr_writeInstr hi, ih hp (Nat.lt_of_succ_lt_succ hf)]

/-- The text of a program with a record is longer than that of the empty one. -/
theorem writeProgramText_cons_ne (i : Instr) (p : List Instr) :
    writeProgramText (i :: p) ≠ "[]".toList := by
  intro h
  have hlen : (writeInstr i ++ writeRest p).length + 1 = 2 := congrArg List.length h
  have := three_le_length_writeInstr i
  rw [List.length_append] at hlen
  omega

/-- Settles O15: the first record is read after the bracket, the others up to the closing one. -/
theorem writtenProgramReadsBack : Obligations.WrittenProgramReadsBack := by
  intro p h
  cases p with
  | nil => rfl
  | cons i p =>
    obtain ⟨hi, hp⟩ : i.wellFormed = true ∧ programWellFormed p = true := by
      simpa [programWellFormed] using h
    have hb : eat ['['] (writeProgramText (i :: p)) = some (writeInstr i ++ writeRest p) :=
      eat_append ['['] _
    rw [readProgramText, if_neg (writeProgramText_cons_ne i p), hb]
    simp [readInstr_writeInstr hi, readRest_writeRest hp
      (Nat.lt_succ_of_lt (length_lt_length_writeRest p))]

end Sys2Proof.Machine

/-! SUPPORT. The tick that runs a record: its step, its result and where it leaves `pc` (40_tick_cycle R81
to R83, R89 to R91). -/

namespace Sys2Proof.Machine

/-- Settles O19: the latch is looked at before the fetch. -/
theorem latchedFaultIsReportedAgain : Obligations.LatchedFaultIsReportedAgain :=
  fun _ _ h => ⟨tick_of_fault h, step_next.2 ⟨_, tick_of_fault h⟩⟩

/-- Steps 3 and 4 always answer a state, so the step answers what they do. -/
theorem step_of_fetch {s : State} {i : Instr} (hn : s.fault = none) (hf : s.fetch = some i)
    (hlt : s.pc.toNat + 1 < 2 ^ 64) : step s = exec i s.advancePc := by
  obtain ⟨t, hx⟩ := exec_answers i s.advancePc
  rw [hx]
  exact step_next.2 ⟨_, tick_of_exec hn hf hlt hx⟩

/-- Settles O16: R5's bound keeps the advance from wrapping. -/
theorem stepRunsTheFetchedRecord : Obligations.StepRunsTheFetchedRecord :=
  fun _ _ hp hn hf =>
    ⟨step_of_fetch hn hf (hp.pc_lt hf), rfl, State.toNat_pc_add_one (hp.pc_lt hf)⟩

theorem State.withFetchWord_of_decodes {nbits w : Nat} {i : Instr} (s : State)
    (h : decodeTableWord nbits w = some i) : s.withFetchWord nbits w = s.place i := by
  rw [State.withFetchWord, h]

/-- A placed record is the one the next tick fetches (R82; log entry 12). -/
theorem State.place_fetches (i : Instr) {s : State} (hp : s.ProgFits) :
    (s.place i).fault = none ∧ (s.place i).fetch = some i ∧
      (s.place i).pc.toNat + 1 < 2 ^ 64 := by
  have := hp.length_lt
  by_cases h : s.pc.toNat < s.prog.length
  · rw [State.place, if_pos h]
    exact ⟨rfl, by simp [State.fetch, h], show s.pc.toNat + 1 < 2 ^ 64 by omega⟩
  · rw [State.place, if_neg h]
    exact ⟨rfl, rfl, show (0 : Word).toNat + 1 < 2 ^ 64 by decide⟩

/-- Settles O17: the word is placed where the step fetches. -/
theorem stepRunsThePlacedInstruction : Obligations.StepRunsThePlacedInstruction := by
  intro s nbits w i hp hd
  rw [s.withFetchWord_of_decodes hd]
  obtain ⟨hn, hf, hlt⟩ := State.place_fetches i hp
  exact step_of_fetch hn hf hlt

/-- Of the three ways a tick ends, the only one with no fault latched and a record at `pc`. -/
theorem tick_of_fetch {s t : State} {i : Instr} {r : TickResult} (hn : s.fault = none)
    (hf : s.fetch = some i) (h : tick s = .next (t, r)) :
    s.pc.toNat + 1 < 2 ^ 64 ∧ exec i s.advancePc = .next t ∧ r = resultOfLatch t.fault := by
  rcases tick_cases h with ⟨e, he, -⟩ | ⟨-, hend, -⟩ | ⟨j, -, hj, hlt, hx, hr⟩
  · rw [hn] at he; cases he
  · rw [hf] at hend; cases hend
  · rw [hf] at hj; cases hj; exact ⟨hlt, hx, hr⟩

/-- Settles O20: the result is read off the latch, and the latch is as the effect leaves it. -/
theorem tickResultIsWhatItLatches : Obligations.TickResultIsWhatItLatches := by
  intro s t i r hn hf h
  obtain ⟨-, hx, rfl⟩ := tick_of_fetch hn hf h
  rcases (exec_effect hx).fault_cases with ht | ⟨k, hk, ht⟩
  · have ht : t.fault = none := ht.trans hn
    exact .inl ⟨by rw [ht]; rfl, ht⟩
  · exact .inr ⟨k, hk, by rw [ht]; rfl, ht⟩

theorem fault_of_resultOfLatch_error {fault : Option Error} {e : Error}
    (h : resultOfLatch fault = .error e) : fault = some e := by
  cases fault with
  | none => cases h
  | some e' => cases h; rfl

/-- An instruction that latches an error makes no jump (R89). -/
theorem Effect.pc_of_latched {s t : State} {i : Instr} {e : Error} (h : Effect s i t)
    (hn : s.fault = none) (ht : t.fault = some e) : t.pc = s.pc := by
  refine h.pc_cases.resolve_right ?_
  rintro ⟨heq, -⟩
  rw [hn, ht] at heq
  cases heq

/-- Settles O60: the record acts on the advanced `pc`, which only a taken jump overwrites. -/
theorem pcIsAdvancedBeforeTheRecordActs : Obligations.PcIsAdvancedBeforeTheRecordActs := by
  intro s t i r _ hn hf h
  obtain ⟨hlt, hx, rfl⟩ := tick_of_fetch hn hf h
  have he := exec_effect hx
  refine ⟨State.toNat_pc_add_one hlt, ?_, ?_, ?_⟩
  · intro rest target hj
    rw [exec_of_isTakenJump (s := s.advancePc) hj] at hx
    cases hx
    rfl
  · intro hno
    exact he.pc_cases.resolve_right fun ⟨_, hj⟩ => hno _ _ hj
  · intro e hr
    exact he.pc_of_latched hn (fault_of_resultOfLatch_error hr)

theorem popsOf_le_two (i : Instr) : popsOf i ≤ 2 := by
  cases i <;> simp [popsOf]

/-- An instruction that latches an error has pushed nothing and popped at most two values (R89, decision
D7). -/
theorem Effect.stack_of_latched {s t : State} {i : Instr} {e : Error} (h : Effect s i t)
    (hn : s.fault = none) (ht : t.fault = some e) :
    ∃ popped, s.stack = t.stack ++ popped ∧ popped.length ≤ 2 := by
  cases h with
  | nop | push | operator | jmp | jmpIf | jmpO | jmpIfO => simp [hn] at ht
  | invalid | pushFull => exact ⟨[], by simp⟩
  | underflow _ hlt => exact ⟨s.stack, rfl, hlt.le.trans (popsOf_le_two i)⟩
  | badOperator _ hs | operatorFull _ hs | jmpIfBad hs | jmpOBad hs | jmpIfOBad hs =>
    exact ⟨_, hs, by simp⟩

/-- Settles O41: a step that latches an error is no step of a Halted engine, so it is an `Effect` after
step 2. -/
theorem failingTickAdvancesAndOnlyPops : Obligations.FailingTickAdvancesAndOnlyPops := by
  intro s t e hn hs ht
  rcases step_cases hs with ⟨-, rfl⟩ | ⟨i, -, -, he⟩
  · rw [hn] at ht; cases ht
  · obtain ⟨popped, hstack, hlen⟩ := he.stack_of_latched hn ht
    have hstack : s.stack = t.stack ++ popped := hstack
    exact ⟨he.pc_of_latched hn ht, ⟨popped, hstack.symm⟩, by simpa [hstack] using hlen,
      he.prog_eq, he.heap_eq, he.config_eq⟩

end Sys2Proof.Machine

/-! SUPPORT. Validation, the full stack, and when an instruction completes (40_tick_cycle R84, R85, R88,
R91). -/

namespace Sys2Proof.Machine

/-- An argument "must be of kind `U64`" (R85). -/
theorem map_kind_eq_u64_iff {arg : Option Value} :
    arg.map Value.kind = some .u64 ↔ ∃ n : Word, arg = some (.u64 n) := by
  rcases arg with _ | (_ | _ | _) <;> simp [Value.kind]

/-- Settles O59: the rows of the table by what they ask of the argument. -/
theorem validExactlyAsTheTableSays : Obligations.ValidExactlyAsTheTableSays := by
  intro i
  cases i with
  | nop | add | sub | jmpO | jmpIfO => exact Option.isNone_iff_eq_none
  | push => exact Option.isSome_iff_exists
  | jmp | jmpIf => exact beq_iff_eq.trans map_kind_eq_u64_iff

/-- The records that fail validation, by what is wrong with the argument (R85). -/
theorem valid_eq_false_iff (i : Instr) : valid i = false ↔
    ((i.op = .nop ∨ i.op = .add ∨ i.op = .sub ∨ i.op = .jmpO ∨ i.op = .jmpIfO) ∧ i.arg ≠ none) ∨
    ((i.op = .push ∨ i.op = .jmp ∨ i.op = .jmpIf) ∧ i.arg = none) ∨
    ((i.op = .jmp ∨ i.op = .jmpIf) ∧
      (i.arg.map Value.kind = some .pointer ∨ i.arg.map Value.kind = some .bool)) := by
  cases i with
  | nop arg | add arg | sub arg | jmpO arg | jmpIfO arg | push arg =>
    cases arg <;> simp [valid, Instr.op, Instr.arg]
  | jmp arg | jmpIf arg =>
    rcases arg with _ | (_ | _ | _) <;> simp [valid, Instr.op, Instr.arg, Value.kind]

/-- In step 4 no instruction latches `InvalidInstruction` (R84). -/
theorem Effect.not_valid_of_latched {s t : State} {i : Instr} (h : Effect s i t)
    (hn : s.fault = none) (ht : t.fault = some ⟨.invalidInstruction, 0⟩) : valid i = false := by
  cases h with
  | invalid hv => exact hv
  | nop | push | operator | jmp | jmpIf | jmpO | jmpIfO => simp [hn] at ht
  | pushFull | underflow | badOperator | operatorFull | jmpIfBad | jmpOBad | jmpIfOBad => cases ht

/-- A load that fails to decode at an unknown opcode byte (R53, R173). -/
theorem load_of_unknown_opcode {p : List Instr} {bytes rest : List Byte} {b : Byte} {s : State}
    (e : StreamEnd) (hp : encodeProgram p = .ok bytes) (hb : 8 ≤ b.toNat)
    (hc : s.config.progCapacity = none) :
    command (.load ⟨bytes ++ b :: rest, 0, e⟩) s = .next (s, .loadFailed .invalidInstruction) := by
  refine loadDecodesThenResets.2 s _ _ ?_
  rw [hc]
  exact (unknownOpcodeByteIsRejected b rest hb).2 p bytes e hp

/-- Settles O35: the decoder's cause, the table of the records that fail, and step 3 as the only step of
the tick that raises it. -/
theorem invalidInstructionCauses : Obligations.InvalidInstructionCauses := by
  refine ⟨?_, valid_eq_false_iff, ?_, ?_⟩
  · intro p bytes b rest e s hp hb hc
    exact ⟨load_of_unknown_opcode e hp hb hc, rfl⟩
  · intro s i hp hn hf hv
    exact tick_of_exec hn hf (hp.pc_lt hf) (exec_of_not_valid s.advancePc hv)
  · intro s t i hn hv hx ht
    have hinv := (exec_effect hx).not_valid_of_latched hn ht
    rw [hv] at hinv
    cases hinv

/-- A stack within its capacity has no room exactly when the capacity is reached (R88). -/
theorem State.StackFits.hasRoom_eq_false_iff {s : State} (hf : s.StackFits) :
    s.hasRoom = false ↔ s.config.stackCapacity = some s.stack.length := by
  unfold State.StackFits at hf
  unfold State.hasRoom
  cases hc : s.config.stackCapacity with
  | none => simp
  | some bound =>
    rw [hc, fits_some] at hf
    rw [← Bool.not_eq_true, fits_some, Option.some.injEq]
    omega

theorem State.stackFits_of_full {s : State}
    (h : s.config.stackCapacity = some s.stack.length) : s.StackFits := by
  unfold State.StackFits
  rw [h, fits_some]

/-- `Add` and `Sub` find the room their operands leave, so only `Push` overflows a stack within its
capacity (R88). -/
theorem Effect.push_of_overflow {s t : State} {i : Instr} (h : Effect s i t) (hn : s.fault = none)
    (hf : s.StackFits) (ht : t.fault = some ⟨.stackOverflow, 0⟩) :
    (∃ v : Value, i = .push (some v)) ∧ s.hasRoom = false := by
  cases h with
  | pushFull hr => exact ⟨⟨_, rfl⟩, hr⟩
  | operatorFull _ hs _ hr => rw [State.hasRoom_of_popped hf hs] at hr; cases hr
  | nop | push | operator | jmp | jmpIf | jmpO | jmpIfO => simp [hn] at ht
  | invalid | underflow | badOperator | jmpIfBad | jmpOBad | jmpIfOBad => cases ht

/-- Settles O39: `Push` is the only record that meets a full stack, and it latches the error. -/
theorem overflowExactlyWhenFull : Obligations.OverflowExactlyWhenFull := by
  constructor
  · intro s v hc
    exact State.pushValue_full v ((State.stackFits_of_full hc).hasRoom_eq_false_iff.2 hc)
  · intro s t i hn hf hx ht
    obtain ⟨hi, hr⟩ := (exec_effect hx).push_of_overflow hn hf ht
    exact ⟨hi, hf.hasRoom_eq_false_iff.1 hr⟩

/-! `ready`, by what it asks of the stack. -/

theorem popsOf_le_of_operandsReady {i : Instr} {fromTop : List Value}
    (h : operandsReady i fromTop = true) : popsOf i ≤ fromTop.length := by
  unfold operandsReady at h
  split at h <;> simp_all [popsOf]

/-- The operands of `Add` and `Sub` are ready exactly when the operation has a result (R110). -/
theorem operandsReady_of_binary {i : Instr} {op : Word → Word → Word} {lhs rhs : Value}
    {below : List Value} (hi : i = .add none ∨ i = .sub none) :
    operandsReady i (rhs :: lhs :: below) = (applyOperator op lhs rhs).isSome := by
  rcases hi with rfl | rfl <;> cases lhs <;> cases rhs <;> rfl

theorem ready_of_binary {i : Instr} {op : Word → Word → Word} {s : State} {r : List Value}
    {lhs rhs : Value} (hi : i = .add none ∨ i = .sub none) (hs : s.stack = r ++ [lhs, rhs]) :
    ready i s = (applyOperator op lhs rhs).isSome := by
  have ho := operandsReady_of_binary (op := op) (lhs := lhs) (rhs := rhs) (below := r.reverse) hi
  rcases hi with rfl | rfl <;> simp [ready, valid, hs, ho]

theorem not_ready_of_underflow {i : Instr} {s : State} (h : s.stack.length < popsOf i) :
    ready i s = false := by
  have ho : operandsReady i s.stack.reverse = false := by
    rw [← Bool.not_eq_true]
    intro hr
    have := popsOf_le_of_operandsReady hr
    rw [List.length_reverse] at this
    omega
  simp [ready, ho]

/-! What the conditional and the computed jumps need on top of the stack (R122 to R124). -/

@[simp] theorem operandsReady_jmpIf (arg : Option Value) (c : Value) (below : List Value) :
    operandsReady (.jmpIf arg) (c :: below) = (c.kind == .bool) := by
  cases c <;> rfl

@[simp] theorem operandsReady_jmpO (arg : Option Value) (a : Value) (below : List Value) :
    operandsReady (.jmpO arg) (a :: below) = (a.kind == .u64) := by
  cases a <;> rfl

@[simp] theorem operandsReady_jmpIfO (arg : Option Value) (a c : Value) (below : List Value) :
    operandsReady (.jmpIfO arg) (a :: c :: below) = (a.kind == .u64 && c.kind == .bool) := by
  cases a <;> cases c <;> rfl

/-- An instruction ends without an error exactly when it is ready: the errors of step 3, of the pops, of
the kind checks and of the push are each what `ready` shuts out (R91). -/
theorem Effect.completes_iff_ready {s t : State} {i : Instr} (h : Effect s i t)
    (hn : s.fault = none) (hf : s.StackFits) : t.fault = none ↔ ready i s = true := by
  cases h with
  | invalid hv => simp [ready, hv]
  | nop | jmp => simp [hn, ready, valid, operandsReady, Value.kind]
  | push hr => simp [hn, ready, valid, operandsReady, hr]
  | pushFull hr => simp [ready, hr]
  | underflow _ hlt => simp [not_ready_of_underflow hlt]
  | badOperator hi hs hno => simp [ready_of_binary (op := addWord) hi hs, hno addWord]
  | @operator _ op _ _ _ _ hi hs ho =>
    simp [hn, ready_of_binary (op := op) (hi.imp And.left And.left) hs, ho]
  | operatorFull _ hs _ hr => rw [State.hasRoom_of_popped hf hs] at hr; cases hr
  | jmpIf hs | jmpO hs | jmpIfO hs => simp [hn, ready, valid, hs, Value.kind]
  | jmpIfBad hs hk | jmpOBad hs hk => simp [ready, hs, hk]
  | jmpIfOBad hs hk => simpa [ready, valid, hs, ← imp_iff_not_or] using hk

/-- Settles O40: the state the instruction answers is the one whose latch `ready` decides. -/
theorem completesExactlyWhenReady : Obligations.CompletesExactlyWhenReady := by
  intro i s hn hf
  constructor
  · rintro ⟨t, hx, ht⟩
    exact ((exec_effect hx).completes_iff_ready hn hf).1 ht
  · intro hr
    obtain ⟨t, hx⟩ := exec_answers i s
    exact ⟨t, hx, ((exec_effect hx).completes_iff_ready hn hf).2 hr⟩

end Sys2Proof.Machine

/-! SUPPORT. `Nop` and `Push` (spec/41_nop_push.md). -/

namespace Sys2Proof.Machine

/-- The normal end of a run: `pc` is outside the Program (40_tick_cycle R82, 10_state R24). -/
theorem State.halted_of_length_le_pc {s : State} (hn : s.fault = none)
    (hle : s.prog.length ≤ s.pc.toNat) :
    s.engine = .halted ∧ tick s = .next (s, .error ⟨.noMoreInstructions, s.pc⟩) :=
  have hf : s.fetch = none := State.fetch_eq_none.2 hle
  ⟨State.engine_eq_halted.2 (.inr ⟨hn, hf⟩), tick_of_end hn hf⟩

/-- Past the record at the last index `pc` is the length of the Program (10_state R18). -/
theorem State.pc_add_one_eq_length {s : State} (h : s.pc.toNat + 1 = s.prog.length) :
    s.pc + 1 = BitVec.ofNat 64 s.prog.length := by
  rw [← h, BitVec.ofNat_add, BitVec.ofNat_toNat, BitVec.setWidth_eq]
  rfl

/-- Settles O26: the tick of a `Nop` is the advance of step 2 alone, and the advance from the last index
ends the run. -/
theorem nopHasNoEffect : Obligations.NopHasNoEffect := by
  refine ⟨rfl, fun _ => rfl, fun s _ => exec_of_not_valid s rfl, fun s hp hn hf => ?_⟩
  have hlt := hp.pc_lt hf
  have htick : tick s = .next (s.advancePc, .ok) := by
    rw [tick_of_exec hn hf hlt rfl, show s.advancePc.fault = none from hn]
    rfl
  refine ⟨htick, fun hlast => ?_⟩
  rw [← State.pc_add_one_eq_length hlast]
  exact State.halted_of_length_le_pc (s := s.advancePc) hn
    (hlast.symm.trans (State.toNat_pc_add_one hlt).symm).le

/-- Settles O27: the encoder's bytes of the opcode and of the Value, and `Push(v)` with room, which an
unbounded capacity always has. -/
theorem pushAppendsItsArgument : Obligations.PushAppendsItsArgument :=
  ⟨fun n => ⟨encode_record_some (op := .push) rfl (.u64 n),
      encode_record_some (op := .push) rfl (.pointer n)⟩,
    encode_record_some (op := .push) rfl (.bool false),
    encode_record_some (op := .push) rfl (.bool true),
    fun _ v => State.pushValue_room v,
    fun _ v hc => State.pushValue_room v (State.hasRoom_of_unbounded hc),
    fun s => exec_of_not_valid s rfl⟩

end Sys2Proof.Machine

/-! SUPPORT. `Add` and `Sub`, and the operator they share (spec/42_arithmetic.md). -/

namespace Sys2Proof.Machine

theorem addWord_toNat (a b : Word) : (addWord a b).toNat = (a.toNat + b.toNat) % 2 ^ 64 :=
  BitVec.toNat_add a b

theorem subWord_toNat (a b : Word) :
    ((subWord a b).toNat : Int) = ((a.toNat : Int) - b.toNat) % 2 ^ 64 := by
  have hsub : (subWord a b).toNat = (2 ^ 64 - b.toNat + a.toNat) % 2 ^ 64 := BitVec.toNat_sub a b
  have hb : b.toNat < 2 ^ 64 := b.isLt
  omega

/-- Subtraction is addition of the complement (R113). -/
theorem subWord_eq_addWord_complement (a b : Word) :
    subWord a b = addWord a (BitVec.ofNat 64 ((2 ^ 64 - b.toNat) % 2 ^ 64)) := by
  apply BitVec.eq_of_toNat_eq
  have hsub := subWord_toNat a b
  rw [addWord_toNat, BitVec.toNat_ofNat]
  omega

/-- The operator rejects a `Bool` and two different kinds, and nothing else (R110, R115). -/
theorem applyOperator_eq_none_iff {op : Word → Word → Word} {lhs rhs : Value} :
    applyOperator op lhs rhs = none ↔
      lhs.kind = .bool ∨ rhs.kind = .bool ∨ lhs.kind ≠ rhs.kind := by
  cases lhs <;> cases rhs <;> simp [applyOperator, Value.kind]

/-- Settles O34: the two words by their arithmetic modulo 2^64, the kinds by the rows of the operator. -/
theorem applyOperatorOnEveryPairOfKinds : Obligations.ApplyOperatorOnEveryPairOfKinds := by
  constructor
  · exact fun a b => ⟨addWord a b, subWord a b, addWord_toNat a b, subWord_toNat a b, rfl, rfl, rfl,
      rfl, congrArg (some ∘ Value.u64) (subWord_eq_addWord_complement a b)⟩
  · exact fun lhs rhs h => ⟨applyOperator_eq_none_iff.2 h, applyOperator_eq_none_iff.2 h⟩

/-- `Add` and `Sub` find the room their operands leave (R111, R112). -/
theorem exec_of_operator_result {i : Instr} {op : Word → Word → Word} {s : State} {r : List Value}
    {lhs rhs v : Value} (hi : (i = .add none ∧ op = addWord) ∨ (i = .sub none ∧ op = subWord))
    (hf : s.StackFits) (hs : s.stack = r ++ [lhs, rhs]) (h : applyOperator op lhs rhs = some v) :
    exec i s = .next { s with stack := r ++ [v] } :=
  exec_of_effect (.operator hi hs h (State.hasRoom_of_popped hf hs))

theorem exec_of_operator_mismatch {i : Instr} {s : State} {r : List Value} {lhs rhs : Value}
    (hi : i = .add none ∨ i = .sub none) (hs : s.stack = r ++ [lhs, rhs])
    (h : lhs.kind = .bool ∨ rhs.kind = .bool ∨ lhs.kind ≠ rhs.kind) :
    exec i s = .next (({ s with stack := r } : State).latch .invalidOperator) :=
  exec_of_effect (.badOperator hi hs fun _ => applyOperator_eq_none_iff.2 h)

/-- Settles O28: the operator's result with the room its operands leave, and each exception by the lemma
of the operation that raises it. -/
theorem addReplacesTheTwoTopValues : Obligations.AddReplacesTheTwoTopValues :=
  ⟨encode_record_none (op := .add) rfl,
    fun _ _ a b hf hs => ⟨addWord a b, addWord_toNat a b,
      exec_of_operator_result (.inl ⟨rfl, rfl⟩) hf hs rfl⟩,
    fun _ _ a b hf hs => ⟨addWord a b, addWord_toNat a b,
      exec_of_operator_result (.inl ⟨rfl, rfl⟩) hf hs rfl⟩,
    fun s _ => exec_of_not_valid s rfl,
    fun _ hs => exec_of_effect (effect_underflow_of_empty rfl hs (by decide)),
    fun _ _ hs => exec_of_underflow rfl (by simp [hs, popsOf]),
    fun _ _ _ _ => exec_of_operator_mismatch (.inl rfl)⟩

/-- Settles O29: as for `Add`, with the difference of the deeper value and the top. -/
theorem subReplacesTheTwoTopValues : Obligations.SubReplacesTheTwoTopValues :=
  ⟨encode_record_none (op := .sub) rfl,
    fun _ _ a b hf hs => ⟨subWord a b, subWord_toNat a b,
      exec_of_operator_result (.inr ⟨rfl, rfl⟩) hf hs rfl⟩,
    fun _ _ a b hf hs => ⟨subWord a b, subWord_toNat a b,
      exec_of_operator_result (.inr ⟨rfl, rfl⟩) hf hs rfl⟩,
    fun s _ => exec_of_not_valid s rfl,
    fun _ hs => exec_of_effect (effect_underflow_of_empty rfl hs (by decide)),
    fun _ _ hs => exec_of_underflow rfl (by simp [hs, popsOf]),
    fun _ _ _ _ => exec_of_operator_mismatch (.inr rfl)⟩

/-- Only a rejected pair of operands of `Add` or `Sub` latches `InvalidOperator` (R144). -/
theorem Effect.mismatch_of_latched {s t : State} {i : Instr} (h : Effect s i t)
    (hn : s.fault = none) (ht : t.fault = some ⟨.invalidOperator, 0⟩) :
    (i = .add none ∨ i = .sub none) ∧
      ∃ (r : List Value) (lhs rhs : Value), s.stack = r ++ [lhs, rhs] ∧
        (lhs.kind = .bool ∨ rhs.kind = .bool ∨ lhs.kind ≠ rhs.kind) := by
  cases h with
  | badOperator hi hs hno =>
    exact ⟨hi, _, _, _, hs, applyOperator_eq_none_iff.1 (hno addWord)⟩
  | nop | push | operator | jmp | jmpIf | jmpO | jmpIfO => simp [hn] at ht
  | invalid | pushFull | underflow | operatorFull | jmpIfBad | jmpOBad | jmpIfOBad => cases ht

/-- Settles O36: a mismatch latches it, and of all an instruction can do nothing else does. -/
theorem invalidOperatorExactlyOnMismatch : Obligations.InvalidOperatorExactlyOnMismatch :=
  ⟨fun _ _ _ _ _ => exec_of_operator_mismatch,
    fun _ _ _ hn hx => (exec_effect hx).mismatch_of_latched hn⟩

end Sys2Proof.Machine

/-! SUPPORT. `Jmp`, `JmpIf`, `JmpO` and `JmpIfO` (spec/43_jumps.md). -/

namespace Sys2Proof.Machine

/-- The two records whose argument is a target fail validation on any other argument, or none (R85). -/
theorem exec_of_bad_target_arg {i : Instr} {arg : Option Value} (s : State)
    (hi : i = .jmp arg ∨ i = .jmpIf arg) (h : arg.map Value.kind ≠ some .u64) :
    exec i s = .next (s.latch .invalidInstruction) := by
  have hv : (arg.map Value.kind == some .u64) = false := beq_eq_false_iff_ne.2 h
  rcases hi with rfl | rfl
  · exact exec_of_not_valid s hv
  · exact exec_of_not_valid s hv

/-- A jump not taken "leaves the already-incremented `pc` unchanged" and only pops (R120). -/
theorem exec_jmpIf_of_false {s : State} {t : Word} {r : List Value}
    (hs : s.stack = r ++ [.bool false]) :
    exec (.jmpIf (some (.u64 t))) s = .next { s with stack := r } :=
  exec_of_effect (.jmpIf (taken := false) hs)

theorem exec_jmpIfO_of_false {s : State} {t : Word} {r : List Value}
    (hs : s.stack = r ++ [.bool false, .u64 t]) :
    exec (.jmpIfO none) s = .next { s with stack := r } :=
  exec_of_effect (.jmpIfO (taken := false) hs)

theorem exec_of_empty {i : Instr} {s : State} (hv : valid i = true) (hp : 0 < popsOf i)
    (hs : s.stack = []) : exec i s = .next (s.latch .stackUnderflow) :=
  exec_of_effect (effect_underflow_of_empty hv hs hp)

/-- Settles O31: the jump taken and not taken, and each exception by the step that raises it. -/
theorem jmpIfPopsTheCondition : Obligations.JmpIfPopsTheCondition :=
  ⟨fun t => encode_record_some (op := .jmpIf) rfl (.u64 t),
    fun _ _ _ hs => exec_of_isTakenJump (.inr (.inl ⟨rfl, hs⟩)),
    fun _ _ _ => exec_jmpIf_of_false,
    fun s _ => exec_of_bad_target_arg s (.inr rfl),
    fun _ _ => exec_of_empty rfl Nat.one_pos,
    fun _ _ _ _ hs hk => exec_of_effect (.jmpIfBad hs hk)⟩

/-- Settles O32: the jump, which is always taken, and each exception by the step that raises it. -/
theorem jmpOPopsTheTarget : Obligations.JmpOPopsTheTarget :=
  ⟨encode_record_none (op := .jmpO) rfl,
    fun _ _ _ hs => exec_of_isTakenJump (.inr (.inr (.inl ⟨rfl, hs⟩))),
    fun s _ => exec_of_not_valid s rfl,
    fun _ => exec_of_empty rfl Nat.one_pos,
    fun _ _ _ hs hk => exec_of_effect (.jmpOBad hs hk)⟩

/-- Settles O33: as for `JmpIf`, with both operands popped before either kind is looked at, so that one
value alone on the stack underflows (decision D8). -/
theorem jmpIfOPopsAddressThenCondition : Obligations.JmpIfOPopsAddressThenCondition :=
  ⟨encode_record_none (op := .jmpIfO) rfl,
    fun _ _ _ hs => exec_of_isTakenJump (.inr (.inr (.inr ⟨rfl, hs⟩))),
    fun _ _ _ => exec_jmpIfO_of_false,
    fun s _ => exec_of_not_valid s rfl,
    fun _ => exec_of_empty rfl Nat.two_pos,
    fun _ _ hs => exec_of_underflow rfl (by simp [hs, popsOf]),
    fun _ _ _ _ => exec_jmpIfO_of_bad_operands⟩

/-- Settles O42: `Effect.pc_of_latched`, for the error the instruction latched. -/
theorem failingInstructionNeverJumps : Obligations.FailingInstructionNeverJumps := by
  intro i s t hn hx ht
  obtain ⟨e, he⟩ := Option.ne_none_iff_exists'.1 ht
  exact (exec_effect hx).pc_of_latched hn he

/-- Settles O25: the jump does not look at the Program and leaves the latch empty; the end of the run is
met by the next fetch. -/
theorem jumpOutOfTheProgramCompletes : Obligations.JumpOutOfTheProgramCompletes := by
  intro s i rest target hp hn hf hj hout
  have hx : exec i s.advancePc = .next { s with stack := rest, pc := target } :=
    exec_of_isTakenJump (s := s.advancePc) hj
  have htick : tick s = .next ({ s with stack := rest, pc := target }, .ok) := by
    rw [tick_of_exec hn hf (hp.pc_lt hf) hx, hn]
    rfl
  exact ⟨htick, State.halted_of_length_le_pc hn hout⟩

/-- Settles O30: the encoder's bytes of the opcode and of the argument, and the taken jump. -/
theorem jmpSetsPc : Obligations.JmpSetsPc :=
  ⟨encode_record_some (op := .jmp) rfl,
    fun t => encode_record_some (op := .jmp) rfl (.u64 t),
    fun _ _ => exec_of_effect .jmp,
    fun s _ => exec_of_bad_target_arg s (.inl rfl)⟩

end Sys2Proof.Machine

/-! SUPPORT. The errors a tick can answer, and which instruction latches which (spec/60_exceptions.md). -/

namespace Sys2Proof.Machine

/-- An error of a tick is either held by the latch or the end of the Program, which changes nothing (R153,
decision D26). -/
theorem tick_error_cases {s t : State} {e : Error} (h : tick s = .next (t, .error e)) :
    t.fault = some e ∨
      (s.fault = none ∧ s.fetch = none ∧ t = s ∧ e = ⟨.noMoreInstructions, s.pc⟩) := by
  rcases tick_cases h with ⟨e', he, rfl, hr⟩ | ⟨hn, hf, rfl, hr⟩ | ⟨i, -, -, -, -, hr⟩
  · cases hr; exact .inl he
  · cases hr; exact .inr ⟨hn, hf, rfl, rfl⟩
  · exact .inl (fault_of_resultOfLatch_error hr.symm)

/-- `NoMoreInstructions` is not fatal, so the latch never holds it (R149). -/
theorem State.Inv.fault_ne_noMoreInstructions {s : State} (h : s.Inv) (info : Word) :
    s.fault ≠ some ⟨.noMoreInstructions, info⟩ := by
  intro hf
  have hl := h.latchFatal
  rw [hf] at hl
  cases hl

/-- Settles O18: the invariant keeps the error out of the latch, so a tick that answers it is one at the
end. -/
theorem noMoreInstructionsExactlyAtTheEnd : Obligations.NoMoreInstructionsExactlyAtTheEnd := by
  intro s hi
  refine ⟨?_, ?_, ?_⟩
  · intro hn hend
    have htick := tick_of_end hn (State.fetch_eq_none.2 hend)
    exact ⟨htick, step_next.2 ⟨_, htick⟩⟩
  · intro t info h
    obtain hl | ⟨hn, hf, ht, he⟩ := tick_error_cases h
    · exact absurd hl ((tick_inv hi h).fault_ne_noMoreInstructions info)
    · exact ⟨hn, State.fetch_eq_none.1 hf, congrArg Error.info he, ht⟩
  · intro t e h ht
    obtain hl | ⟨-, -, -, he⟩ := tick_error_cases h
    · rw [ht] at hl; cases hl
    · exact he

/-- Settles O24: a step with a latched fault leaves the state, so a run keeps the latch. -/
theorem firstFaultIsKept : Obligations.FirstFaultIsKept := by
  intro n s t e hs hrun
  refine run_induction (P := fun s => s.fault = some e) ?_ n hs hrun
  intro s t hs hstep
  rw [(latchedFaultIsReportedAgain s e hs).2] at hstep
  cases hstep
  exact hs

/-- Only a popped operand of the wrong kind latches `InvalidInstructionArgument` (R143). -/
theorem Effect.wrong_kind_of_latched {s t : State} {i : Instr} (h : Effect s i t)
    (hn : s.fault = none) (ht : t.fault = some ⟨.invalidInstructionArgument, 0⟩) :
    ∃ r : List Value,
      (∃ (n : Word) (c : Value),
        i = .jmpIf (some (.u64 n)) ∧ s.stack = r ++ [c] ∧ c.kind ≠ .bool) ∨
      (∃ v : Value, i = .jmpO none ∧ s.stack = r ++ [v] ∧ v.kind ≠ .u64) ∨
      (∃ c a : Value, i = .jmpIfO none ∧ s.stack = r ++ [c, a] ∧
        (a.kind ≠ .u64 ∨ c.kind ≠ .bool)) := by
  cases h with
  | jmpIfBad hs hk => exact ⟨_, .inl ⟨_, _, rfl, hs, hk⟩⟩
  | jmpOBad hs hk => exact ⟨_, .inr (.inl ⟨_, rfl, hs, hk⟩)⟩
  | jmpIfOBad hs hk => exact ⟨_, .inr (.inr ⟨_, _, rfl, hs, hk⟩)⟩
  | nop | push | operator | jmp | jmpIf | jmpO | jmpIfO => simp [hn] at ht
  | invalid | pushFull | underflow | badOperator | operatorFull => cases ht

/-- Settles O37: each of the three jumps latches it, and of all an instruction can do nothing else does. -/
theorem invalidArgumentExactlyOnWrongKind : Obligations.InvalidArgumentExactlyOnWrongKind :=
  ⟨fun _ _ _ _ hs hk => exec_of_effect (.jmpIfBad hs hk),
    fun _ _ _ hs hk => exec_of_effect (.jmpOBad hs hk),
    fun _ _ _ _ => exec_jmpIfO_of_bad_operands,
    fun _ _ _ hn hx => (exec_effect hx).wrong_kind_of_latched hn⟩

/-- Only a valid record that pops more values than there are latches `StackUnderflow` (R147). -/
theorem Effect.underflow_of_latched {s t : State} {i : Instr} (h : Effect s i t)
    (hn : s.fault = none) (ht : t.fault = some ⟨.stackUnderflow, 0⟩) :
    valid i = true ∧ s.stack.length < popsOf i := by
  cases h with
  | underflow hv hlt => exact ⟨hv, hlt⟩
  | nop | push | operator | jmp | jmpIf | jmpO | jmpIfO => simp [hn] at ht
  | invalid | pushFull | badOperator | operatorFull | jmpIfBad | jmpOBad | jmpIfOBad => cases ht

/-- Settles O38: too few values underflow whichever pop meets the empty stack, and of all an instruction
can do nothing else latches the error. -/
theorem underflowExactlyWhenTooFewValues : Obligations.UnderflowExactlyWhenTooFewValues :=
  ⟨fun _ _ => exec_of_underflow,
    fun _ _ _ hn hx => (exec_effect hx).underflow_of_latched hn,
    fun i => by cases i <;> rfl⟩

/-- The codes number the kinds in their order, from 1, so the code gives the kind back (R149). -/
theorem ErrorKind.code_injective : Function.Injective ErrorKind.code :=
  Function.LeftInverse.injective (g := fun n => ErrorKind.ofNat (n - 1)) fun k => by cases k <;> rfl

theorem ErrorKind.code_range (k : ErrorKind) : 1 ≤ k.code ∧ k.code ≤ 11 := by
  cases k <;> decide

/-- Settles O55: the rows of the table by evaluation, the two laws of the codes by their lemmas. -/
theorem errorCodesNameTheKinds : Obligations.ErrorCodesNameTheKinds :=
  ⟨⟨rfl, rfl⟩, ⟨rfl, rfl⟩, ⟨rfl, rfl⟩, ⟨rfl, rfl⟩, ⟨rfl, rfl⟩, ⟨rfl, rfl⟩, ⟨rfl, rfl⟩, ⟨rfl, rfl⟩,
    ⟨rfl, rfl⟩, ⟨rfl, rfl⟩, ⟨rfl, rfl⟩, fun _ _ => ErrorKind.code_injective.ne,
    ErrorKind.code_range, rfl, rfl⟩

end Sys2Proof.Machine

/-! SUPPORT. How a run ends, and what the host's commands keep (spec/70_reset_and_hazards.md). -/

namespace Sys2Proof.Machine

/-- The latch of a state with the invariant holds only what R23 lets it hold. -/
theorem State.Inv.fatal_of_fault {s : State} {e : Error} (h : s.Inv) (he : s.fault = some e) :
    e.kind.fatal = true ∧ e.info = 0 := by
  have hl := h.latchFatal
  rw [he] at hl
  simpa [latchWellFormed] using hl

theorem State.endedInFault_of_fault {s : State} {e : Error} (h : s.fault = some e) :
    s.endedInFault = true := by
  rw [State.endedInFault, h, Option.isSome_some]

theorem State.endedNormally_of_end {s : State} (hn : s.fault = none) (hf : s.fetch = none) :
    s.endedNormally = true := by
  simp [State.endedNormally, hn, State.fetch_eq_none.1 hf]

/-- Settles O21: the error is in the latch, where the invariant allows only a fatal one, or it is the end of
the Program. -/
theorem anErrorEndsTheRun : Obligations.AnErrorEndsTheRun := by
  intro s t e hi h
  obtain hl | ⟨hn, hf, rfl, rfl⟩ := tick_error_cases h
  · obtain ⟨hfatal, hinfo⟩ := (tick_inv hi h).fatal_of_fault hl
    have hkind : e.kind ≠ .noMoreInstructions := fun hk => by rw [hk] at hfatal; cases hfatal
    exact ⟨State.engine_eq_halted.2 (.inl ⟨e, hl⟩), fun hk => absurd hk hkind,
      fun _ => ⟨State.endedInFault_of_fault hl, hl, hfatal, hinfo⟩⟩
  · exact ⟨State.engine_eq_halted.2 (.inr ⟨hn, hf⟩), fun _ => ⟨State.endedNormally_of_end hn hf, rfl⟩,
      fun hk => absurd rfl hk⟩

/-- A reset that is answered is one with a Program the host may hand over (R170; log entry 8). -/
theorem resetCommand_eq_next {p : List Instr} {s t : State} {a : Answer} :
    resetCommand p s = .next (t, a) ↔
      admits s.config p = true ∧ t = State.resetTo s.config p ∧ a = .done := by
  unfold resetCommand
  split <;> simp [*, eq_comm]

/-- A load fails and leaves the state, or is the reset with the decoded Program (R173, decision D21). -/
theorem loadCommand_eq_next {stream : Stream} {s t : State} {a : Answer} :
    loadCommand stream s = .next (t, a) ↔
      (∃ e, decodeProgram s.config.progCapacity stream = .error e ∧ t = s ∧ a = .loadFailed e) ∨
      ∃ p, decodeProgram s.config.progCapacity stream = .ok p ∧ resetCommand p s = .next (t, a) := by
  unfold loadCommand
  split <;> simp [*, eq_comm]

theorem command_tick_eq_next {s t : State} {a : Answer} :
    command .tick s = .next (t, a) ↔ ∃ r, tick s = .next (t, r) ∧ a = .ticked r := by
  unfold command
  cases tick s with
  | next u => cases u; simp [eq_comm]
  | fault _ | refused _ => simp

theorem resetCommand_inv {p : List Instr} {s t : State} {a : Answer} (hi : s.Inv)
    (h : resetCommand p s = .next (t, a)) : t.Inv := by
  obtain ⟨hp, rfl, -⟩ := resetCommand_eq_next.1 h
  exact State.resetTo_inv hi.configFits hp

/-- Settles O58: a command leaves the state, resets it with an admitted Program, or is a tick. -/
theorem everyCommandKeepsTheInvariant : Obligations.EveryCommandKeepsTheInvariant := by
  intro c s t a hi h
  cases c with
  | load stream =>
    obtain ⟨_, -, rfl, -⟩ | ⟨p, -, hr⟩ := loadCommand_eq_next.1 h
    · exact hi
    · exact resetCommand_inv hi hr
  | reset p => exact resetCommand_inv hi h
  | tick =>
    obtain ⟨r, ht, -⟩ := command_tick_eq_next.1 h
    exact tick_inv hi ht

end Sys2Proof.Machine
